-- ==== Sys2Proof/Word.lean ====
section
/-!
DEFINITION. The words of the wide_multiplier core: one limb, and the values its ports and registers carry
(00_scope.md R6, R7; 10_state.md R21, R27).
-/

namespace Sys2Proof

/-- A limb: one 64-bit word of a multi-precision integer (R6). -/
abbrev Limb := BitVec 64

/-- What a 256-bit port or latch carries: 4 limbs, limb `i` at bits `[64*i+63 : 64*i]` (R7, R13). -/
abbrev FieldWord := BitVec 256

/-- What a 512-bit port or register carries: 8 limbs (R7, R21). -/
abbrev WideWord := BitVec 512

/-- A command byte (R56). -/
abbrev OpByte := BitVec 8

/-- The CMD word `{E, B, A, OP}` as one number of 584 bits (R55). -/
abbrev CmdWord := BitVec 584

end Sys2Proof
end

