-- ==== Sys2Proof/Syntax.lean ====
section
/-!
DEFINITION. The command set (30_encoding.md): the eight commands as instructions with the operands they read, the
opcode names, the CMD word with its four fields, and the assembler's lines.
-/

namespace Sys2Proof

/-- The eight mnemonics of R57, without operands. -/
inductive Opcode where
  | wmul | cred | fadd | fsub | fmul | fsqr | fromInt | fout
  deriving DecidableEq, Repr

/-- One command with the operand fields it READS (R58, R59); a field a command ignores has no place here.
`fromInt` is the command FROM (`from` is a word of Lean's). -/
inductive Instr where
  /-- WMUL a, b (R85) -/
  | wmul (a b : FieldWord)
  /-- CRED v, with `v = val(a) + val(e) * 2^256` (R91) -/
  | cred (a : FieldWord) (e : Limb)
  /-- FADD a, b (R98) -/
  | fadd (a b : FieldWord)
  /-- FSUB a, b (R101) -/
  | fsub (a b : FieldWord)
  /-- FMUL a, b (R111) -/
  | fmul (a b : FieldWord)
  /-- FSQR a (R113) -/
  | fsqr (a : FieldWord)
  /-- FROM n (R119) -/
  | fromInt (n : FieldWord)
  /-- FOUT a (R122) -/
  | fout (a : FieldWord)
  deriving DecidableEq, Repr

/-- The mnemonic of a command. -/
def Instr.opcode : Instr → Opcode
  | .wmul _ _ => .wmul
  | .cred _ _ => .cred
  | .fadd _ _ => .fadd
  | .fsub _ _ => .fsub
  | .fmul _ _ => .fmul
  | .fsqr _ => .fsqr
  | .fromInt _ => .fromInt
  | .fout _ => .fout

/-- A command word by its four fields, as the four ports `cmd_op`, `cmd_a`, `cmd_b`, `cmd_e` carry it (R55). -/
structure Cmd where
  op : OpByte
  a : FieldWord
  b : FieldWord
  e : Limb
  deriving DecidableEq, Repr

/-- An operand of an assembler line (R64): a literal, the token `RES`, or the token `P`. -/
inductive AsmOperand where
  | lit (n : Nat)
  | res
  | modulus
  deriving DecidableEq, Repr

/-- One line of the assembler (R64) or one of its pseudo-instructions (R66). -/
inductive AsmLine where
  | wmul (a b : AsmOperand)
  | cred (v : AsmOperand)
  | fadd (a b : AsmOperand)
  | fsub (a b : AsmOperand)
  | fmul (a b : AsmOperand)
  | fsqr (a : AsmOperand)
  | fromInt (n : AsmOperand)
  | fout (a : AsmOperand)
  | fneg (a : AsmOperand)
  | fdbl (a : AsmOperand)
  | fzero
  | fone
  | wsqr (a : AsmOperand)
  deriving DecidableEq, Repr

end Sys2Proof
end

