-- ==== Sys2Proof/Config.lean ====
section
/-!
DEFINITION. What the spec leaves OPEN, as constants no proof can see into (00_scope.md R8 to R11): the modulus, the
reducer's function, the latencies, the cycle of a reducer request, and the free values `any_value` (R16).
-/

namespace Sys2Proof

/-- A modulus the hardware can be built for: `2 <= P < 2^256` (R8). A value outside has no hardware, so it has no term. -/
structure Modulus where
  val : Nat
  two_le : 2 ≤ val
  lt : val < 2 ^ 256

/-- OPEN (R8): which of the `2^256 - 2` values of `[2, 2^256)` the hardware was built with. -/
opaque Config.modulusIndex : Fin (2 ^ 256 - 3 + 1)

/-- The build-time constant `P` (R8, R30), with its range. -/
def Config.modulus : Modulus where
  val := Config.modulusIndex.val + 2
  two_le := by omega
  lt := by have := Config.modulusIndex.isLt; omega

/-- The modulus as a number. -/
abbrev Config.P : Nat := Config.modulus.val

/-- OPEN (R9): the function of the external reducer. -/
opaque Config.reducer : WideWord → FieldWord

/-- `REDUCER_CORRECT(P)` (R9, R109): below `P^2` the reducer answers the residue; above, anything. -/
def ReducerCorrect (p : Modulus) (f : WideWord → FieldWord) : Prop :=
  ∀ x : WideWord, x.toNat < p.val ^ 2 → (f x).toNat = x.toNat % p.val

/-- OPEN (R10): how many cycles above one each command takes; `none` stands for an illegal command byte. -/
opaque Config.extraCycles : Option Opcode → Nat

/-- `LAT_<command>` (R10): clock cycles from acceptance to completion, positive; for FMUL and FSQR the core's own
share; `none` is `LAT_ILLEGAL`. A function of the command alone, never of its operands (R150). -/
def Config.latency (c : Option Opcode) : Nat := Config.extraCycles c + 1

/-- OPEN (95_test_vectors.md section 6, "the spec does not fix in which cycle of the FMUL the request is issued"). -/
opaque Config.requestIndex : Opcode → Nat

/-- The core cycle of an FMUL or FSQR whose edge issues the reducer request: from 1 to the latency
(DEDUCED, assumption 8). -/
def Config.requestCycle (c : Opcode) : Nat := Config.requestIndex c % Config.latency (some c) + 1

/-- FREE VALUE `any_value(512)` (R16, R40, R131 to R133): what RESULT holds where the spec gives it no value. -/
opaque Config.anyResult : Nat → WideWord

/-- FREE VALUE: what STATUS.CODE holds in BUSY (R40), among the four values that CODE ever takes (R25): bits of an
opaque number (assumption 9). -/
opaque Config.anyCode : Nat → BitVec 2

end Sys2Proof
end

