-- ==== Sys2Proof/WellFormed.lean ====
section
/-!
DEFINITION. Which command words and assembler lines are well formed. An `Instr` needs no check: its operands are bit
vectors of the widths of R7, so every term is a command the port can carry.
-/

namespace Sys2Proof

/-- A command word as the assembler writes it (R57, R58, R65): one of the eight command bytes, every ignored field
zero. (The core itself accepts any word: R61.) -/
def Cmd.wellFormed (c : Cmd) : Bool :=
  match c.op.toNat with
  | 1 => c.e == 0
  | 2 => c.b == 0
  | 3 => c.e == 0
  | 4 => c.e == 0
  | 5 => c.e == 0
  | 6 => c.b == 0 && c.e == 0
  | 7 => c.b == 0 && c.e == 0
  | 8 => c.b == 0 && c.e == 0
  | _ => false

/-- Does an operand fit a field of `width` bits (R64)? `RES` is cut to the field, and `P` is below `2^256` (R8). -/
def AsmOperand.fits (width : Nat) : AsmOperand → Bool
  | .lit n => decide (n < 2 ^ width)
  | .res => true
  | .modulus => true

/-- The literal ranges of R64: A and B below `2^256`, the CRED operand below `2^320`. -/
def AsmLine.wellFormed : AsmLine → Bool
  | .wmul a b => a.fits 256 && b.fits 256
  | .cred v => v.fits 320
  | .fadd a b => a.fits 256 && b.fits 256
  | .fsub a b => a.fits 256 && b.fits 256
  | .fmul a b => a.fits 256 && b.fits 256
  | .fsqr a => a.fits 256
  | .fromInt n => n.fits 256
  | .fout a => a.fits 256
  | .fneg a => a.fits 256
  | .fdbl a => a.fits 256
  | .fzero => true
  | .fone => true
  | .wsqr a => a.fits 256

end Sys2Proof
end

