-- ==== Sys2Proof/Decode.lean ====
section
/-!
DEFINITION. Decoding (30_encoding.md R55 to R63), total on every command word and rejecting by name, and after it the
encoder (R58, R65).
-/

namespace Sys2Proof

/-- Why a command byte is illegal (R61): `RSV = OP[7:4]` is not zero, or `OPC = OP[3:0]` has no command. -/
inductive DecodeError where
  | reservedBitsSet
  | opcodeUnassigned
  deriving DecidableEq, Repr

/-- The CMD word read as its four fields (R55). -/
def Cmd.ofBits (w : CmdWord) : Cmd where
  op := w.extractLsb' 0 8
  a := w.extractLsb' 8 256
  b := w.extractLsb' 264 256
  e := w.extractLsb' 520 64

/-- The four fields as one CMD word `{E, B, A, OP}` (R55, R65). -/
def Cmd.toBits (c : Cmd) : CmdWord := c.e ++ c.b ++ c.a ++ c.op

/-- `Decode(OP)` (R60), total on the 256 byte values. -/
def decodeOp (op : OpByte) : Except DecodeError Opcode :=
  if op.extractLsb' 4 4 ≠ 0#4 then .error .reservedBitsSet
  else
    match (op.extractLsb' 0 4).toNat with
    | 1 => .ok .wmul
    | 2 => .ok .cred
    | 3 => .ok .fadd
    | 4 => .ok .fsub
    | 5 => .ok .fmul
    | 6 => .ok .fsqr
    | 7 => .ok .fromInt
    | 8 => .ok .fout
    | _ => .error .opcodeUnassigned

/-- The command with the operand fields it reads (R58). -/
def Opcode.withOperands (k : Opcode) (c : Cmd) : Instr :=
  match k with
  | .wmul => .wmul c.a c.b
  | .cred => .cred c.a c.e
  | .fadd => .fadd c.a c.b
  | .fsub => .fsub c.a c.b
  | .fmul => .fmul c.a c.b
  | .fsqr => .fsqr c.a
  | .fromInt => .fromInt c.a
  | .fout => .fout c.a

/-- The command a captured command word selects, or why it is illegal. -/
def decode (c : Cmd) : Except DecodeError Instr := (decodeOp c.op).map (·.withOperands c)

/-- Decoding from the 584 bits of the CMD word. -/
def decodeWord (w : CmdWord) : Except DecodeError Instr := decode (Cmd.ofBits w)

/-- The command byte of each mnemonic (R57). -/
def Opcode.byte : Opcode → OpByte
  | .wmul => 0x01
  | .cred => 0x02
  | .fadd => 0x03
  | .fsub => 0x04
  | .fmul => 0x05
  | .fsqr => 0x06
  | .fromInt => 0x07
  | .fout => 0x08

/-- The fields of a command's word; every ignored field is zero (R58, R65). -/
def encodeCmd (i : Instr) : Cmd :=
  match i with
  | .wmul a b => ⟨i.opcode.byte, a, b, 0⟩
  | .cred a e => ⟨i.opcode.byte, a, 0, e⟩
  | .fadd a b => ⟨i.opcode.byte, a, b, 0⟩
  | .fsub a b => ⟨i.opcode.byte, a, b, 0⟩
  | .fmul a b => ⟨i.opcode.byte, a, b, 0⟩
  | .fsqr a => ⟨i.opcode.byte, a, 0, 0⟩
  | .fromInt n => ⟨i.opcode.byte, n, 0, 0⟩
  | .fout a => ⟨i.opcode.byte, a, 0, 0⟩

/-- The CMD word of a command (R65). -/
def encode (i : Instr) : CmdWord := (encodeCmd i).toBits

/-- The fields of a CMD word given as a number, the same as `Cmd.ofBits` (R55); bits above 583 are not looked at. -/
def Cmd.ofNat (n : Nat) : Cmd where
  op := BitVec.ofNat 8 n
  a := BitVec.ofNat 256 (n >>> 8)
  b := BitVec.ofNat 256 (n >>> 264)
  e := BitVec.ofNat 64 (n >>> 520)

/-- The command word whose low `nbits` bits are those of `w` and whose bits above are zero. -/
def tableCmd (nbits w : Nat) : Cmd := Cmd.ofNat (w % 2 ^ nbits)

/-- What the decoder reads from a word numbered as spec/opcode_table.json numbers it: bit 0 is bit 0 of OP. -/
def decodeTableWord (nbits w : Nat) : Option Instr := (decode (tableCmd nbits w)).toOption

end Sys2Proof
end

