-- ==== Sys2Proof/Machine/State.lean ====
section
/-!
DEFINITION. The state of the core (10_state.md), with the two agents around it as plain data: what the host and the
reducer drive on the input ports at the coming clock edges. One step of the machine is one rising edge of `clk`.
-/

namespace Sys2Proof.Machine

/-- STATUS.CODE (R25). The values 4 to 7 are never written and have no name here. -/
inductive Code where
  | ok | outOfRange | contract | illegal
  deriving DecidableEq, Repr

/-- The input ports at one clock edge (R36). -/
structure Inputs where
  /-- `rst` -/
  rst : Bool
  /-- `cmd_valid` -/
  cmdValid : Bool
  /-- `cmd_op`, `cmd_a`, `cmd_b`, `cmd_e` -/
  cmd : Cmd
  /-- `red_done` -/
  redDone : Bool
  /-- `red_r`: `none` where the modelled reducer drives it, with `REDUCER(red_x)` (R108); `some r` where the wires
  carry `r`, whatever the reducer should have said (R112, R115, R149). Read only at `red_done = 1`. -/
  redR : Option FieldWord
  deriving DecidableEq, Repr

/-- No reset, no command, no answer. -/
def Inputs.idle : Inputs where
  rst := false
  cmdValid := false
  cmd := ⟨0, 0, 0, 0⟩
  redDone := false
  redR := none

/-- What is left of the command in progress (R38, R39, R110), in edges of the core's own time (R10). -/
inductive Work where
  /-- No reducer is waited for: the command completes at the `left`-th edge from now. -/
  | running (left : Nat)
  /-- An FMUL or FSQR before its request: the request is due at the `wait`-th edge from now, `after` edges of the
  core's own share remain then. -/
  | toRequest (wait after : Nat)
  /-- A request is outstanding: `red_x = x` is held, and `after` edges remain once it is answered. -/
  | asked (x : WideWord) (after : Nat)
  /-- `red_r` was sampled as `r`; the command completes at the `left`-th edge from now. -/
  | answered (r : FieldWord) (left : Nat)
  deriving DecidableEq, Repr

/-- The phase (R28), with the progress of the command in BUSY (R35). -/
inductive Phase where
  | idle
  | busy (work : Work)
  deriving DecidableEq, Repr

/-- Everything the spec gives the core, and what its two neighbours drive. STATUS is stored by fields; BUSY is the
phase and bits [7:6] are no storage (`State.status` in Machine/Ports.lean is the register as the port shows it). -/
structure State where
  /-- RESULT (R21) -/
  result : WideWord
  /-- STATUS.VALID (R24) -/
  valid : Bool
  /-- STATUS.CODE (R25) -/
  code : Code
  /-- STATUS.FAULT, sticky (R26) -/
  fault : Bool
  /-- The phase, STATUS.BUSY, the progress of the command and the pending reducer request (R28, R35) -/
  phase : Phase
  /-- The latch OP (R27) -/
  op : OpByte
  /-- The latch A (R27) -/
  a : FieldWord
  /-- The latch B (R27) -/
  b : FieldWord
  /-- The latch E (R27) -/
  e : Limb
  /-- The output register behind `done` (R36, R39) -/
  done : Bool
  /-- The output register behind `red_start` (R36, R110) -/
  redStart : Bool
  /-- MODEL: how many free values have been drawn (assumption 3) -/
  draws : Nat
  /-- MODEL: the input ports at the coming edges, the next edge first; past the end, `Inputs.idle` (assumption 4) -/
  inputs : List Inputs
  deriving DecidableEq, Repr

/-- Why a host-side read has no value. No step of the core ends in one. -/
inductive Fault where
  /-- Raised by `State.readResult` (Machine/Ports.lean) alone: RESULT read in IDLE with VALID = 0, where it "holds no
  defined value: a model reading RESULT while VALID = 0 faults" (R24). Safe: no value is handed out. -/
  | resultHasNoValue
  deriving DecidableEq, Repr

/-- Why the model gives a situation no meaning. No step of the core ends in one. -/
inductive Refusal where
  /-- An instruction of the table without a meaning; raised by no arm of `exec` today. Safe. -/
  | notModelled (mnemonic : String)
  /-- Raised by `State.readResult` and `State.readCode` in BUSY: "A model refuses a read of RESULT or STATUS.CODE in
  BUSY" (R40). Safe. -/
  | readWhileBusy
  /-- Raised by `assemble` for the token `RES` with STATUS.VALID = 0: "the host program is in error and a model
  refuses it" (R64). Safe. -/
  | resWithoutValue
  /-- Raised by `assemble` for a literal that does not fit its field (R64). Safe. -/
  | literalOutOfRange
  /-- Raised by `parseLine` for a text that is no line of R64 or R66. Safe. -/
  | notAnAssemblerLine
  deriving DecidableEq, Repr

/-- The state after reset (R41, R144): IDLE, STATUS `0x00`, no request, `done = 0`. RESULT and the latches, to which
R41 gives no value, are 0 (DESIGN CHOICE, assumption 2); no input is listed (assumption 4). -/
def State.reset : State where
  result := 0
  valid := false
  code := .ok
  fault := false
  phase := .idle
  op := 0
  a := 0
  b := 0
  e := 0
  done := false
  redStart := false
  draws := 0
  inputs := []

end Sys2Proof.Machine
end

