-- ==== Sys2Proof/Machine/Operands.lean ====
section
/-!
DEFINITION. Limb vectors (00_scope.md R13, 20_memory.md R43, R45) and operand assembly (30_encoding.md R59). A limb
vector is a list of limbs, least significant first; its width is its length.
-/

namespace Sys2Proof.Machine

/-- `val(L)` (R13). -/
def val : List Limb → Nat
  | [] => 0
  | l :: ls => l.toNat + 2 ^ 64 * val ls

/-- `limbs_n(x)` (R13), defined there for `x < 2^(64*n)`; here the bits above are dropped. -/
def limbs : Nat → Nat → List Limb
  | 0, _ => []
  | n + 1, x => BitVec.ofNat 64 x :: limbs n (x / 2 ^ 64)

/-- The 4 limbs of an operand (R59). -/
def fieldLimbs (x : FieldWord) : List Limb := limbs 4 x.toNat

/-- The CRED input `{E, A}`: limbs `A[0..3]` and `v[4] = E` (R45, R91). -/
def credLimbs (a : FieldWord) (e : Limb) : List Limb := fieldLimbs a ++ [e]

/-- A limb vector on the 512 wires of RESULT or `red_x`, zero-extended: limb `i` at bits `[64*i+63 : 64*i]`
(R13, R22, R45). -/
def toWide (ls : List Limb) : WideWord := BitVec.ofNat 512 (val ls)

/-- `limbs_4(P)` (R30). -/
def modulusLimbs4 (p : Modulus) : List Limb := limbs 4 p.val

/-- `limbs_5(P)`, the zero extension of `limbs_4(P)` (R30, R77). -/
def modulusLimbs5 (p : Modulus) : List Limb := limbs 5 p.val

end Sys2Proof.Machine
end

