-- ==== Sys2Proof/Machine/Flags.lean ====
section
/-!
DEFINITION. The carry and borrow of one limb step (40_limb_primitives.md R73, R74, R76). The core has no architectural
flags: these exist only inside one command (10_state.md R32, R80).
-/

namespace Sys2Proof.Machine

/-- One limb of `addLimbs` (R73): the sum limb and the carry out. -/
def addStep (x y : Limb) (c : Bool) : Limb × Bool :=
  let t := x.toNat + y.toNat + c.toNat
  (BitVec.ofNat 64 t, decide (t / 2 ^ 64 = 1))

/-- One limb of `subLimbs` (R74): the difference limb and the borrow out. -/
def subStep (x y : Limb) (bo : Bool) : Limb × Bool :=
  let t : Int := (x.toNat : Int) - (y.toNat : Int) - (bo.toNat : Int)
  (BitVec.ofInt 64 t, decide (t < 0))

/-- The carry out found by comparison, where no carry flag exists (R76): from the sum limb `s`, an operand `x` and
the carry in. -/
def carryByComparison (s x : Limb) (c : Bool) : Bool :=
  decide (s.toNat < x.toNat) || (decide (s = x) && c)

end Sys2Proof.Machine
end

