-- ==== Sys2Proof/Machine/Limbs.lean ====
section
/-!
DEFINITION. The limb primitives (40_limb_primitives.md): the internal datapath functions every command is made of.
-/

namespace Sys2Proof.Machine

/-- `addLimbs` from an incoming carry: limb by limb, least significant first (R73). -/
def addLimbsFrom : List Limb → List Limb → Bool → List Limb × Bool
  | x :: xs, y :: ys, c =>
    let (s, c') := addStep x y c
    let (ss, c'') := addLimbsFrom xs ys c'
    (s :: ss, c'')
  | _, _, c => ([], c)

/-- `addLimbs(a, b) -> (s, c)` for two vectors of one width (R73). -/
def addLimbs (xs ys : List Limb) : List Limb × Bool := addLimbsFrom xs ys false

/-- `subLimbs` from an incoming borrow (R74). -/
def subLimbsFrom : List Limb → List Limb → Bool → List Limb × Bool
  | x :: xs, y :: ys, bo =>
    let (d, bo') := subStep x y bo
    let (ds, bo'') := subLimbsFrom xs ys bo'
    (d :: ds, bo'')
  | _, _, bo => ([], bo)

/-- `subLimbs(a, b) -> (d, bo)` for two vectors of one width (R74). -/
def subLimbs (xs ys : List Limb) : List Limb × Bool := subLimbsFrom xs ys false

/-- `mul64(x, y) -> (hi, lo)` (R78). -/
def mul64 (x y : Limb) : Limb × Limb :=
  let t := x.toNat * y.toNat
  (BitVec.ofNat 64 (t / 2 ^ 64), BitVec.ofNat 64 t)

/-- The mask of `select`: all ones for `f = 1`, all zeros for `f = 0` (R79). -/
def selectMask (f : Bool) : Limb := 0#64 - BitVec.ofNat 64 f.toNat

/-- `select(f, x, y)`: `x` where `f = 1`, `y` where `f = 0`, by mask and never by a branch on `f` (R17, R79). -/
def select (f : Bool) (xs ys : List Limb) : List Limb :=
  List.zipWith (fun x y => (selectMask f &&& x) ||| (~~~selectMask f &&& y)) xs ys

end Sys2Proof.Machine
end

