-- ==== Sys2Proof/Machine/Ops.lean ====
section
/-!
DEFINITION. The named operations over the state: how a command ends (60_exceptions.md R129 to R133, the machine's one
way of reporting an error), and the edges of the handshakes and of reset (10_state.md R37 to R41, 44_field_mul_square.md
R110, 70_reset_and_hazards.md R144).
-/

namespace Sys2Proof.Machine

/-- What the rule of a command comes to (R38): `complete(R)`, or one of the two errors a legal command can raise. -/
inductive Completion where
  | ok (r : WideWord)
  | contract
  | outOfRange
  deriving DecidableEq, Repr

/-- `complete(R)` (R129): RESULT and VALID and CODE written, FAULT unchanged, IDLE, `done` for the next cycle. -/
def State.complete (r : WideWord) (s : State) : State :=
  { s with result := r, valid := true, code := .ok, phase := .idle, done := true }

/-- An error completion (R131 to R133): RESULT is `any_value`, VALID 0, CODE names the error, FAULT is set by those
that set it and otherwise unchanged, IDLE, `done` for the next cycle. -/
def State.raise (code : Code) (setsFault : Bool) (s : State) : State :=
  { s with
    result := Config.anyResult s.draws
    draws := s.draws + 1
    valid := false
    code := code
    fault := s.fault || setsFault
    phase := .idle
    done := true }

/-- `raise ContractViolation()` (R131). -/
def State.raiseContract (s : State) : State := s.raise .contract true

/-- `raise OutOfRange()` (R132). -/
def State.raiseOutOfRange (s : State) : State := s.raise .outOfRange false

/-- `raise IllegalCommand()` (R133). -/
def State.raiseIllegal (s : State) : State := s.raise .illegal true

/-- The command in progress ends as its rule says (R38, R39). -/
def State.finish (c : Completion) (s : State) : State :=
  match c with
  | .ok r => s.complete r
  | .contract => s.raiseContract
  | .outOfRange => s.raiseOutOfRange

/-- What the input ports carry at the coming edge. -/
def State.input (s : State) : Inputs := s.inputs.headD Inputs.idle

/-- `cmd_ready = (phase = IDLE) and not rst` (R37). -/
def State.cmdReady (s : State) : Bool := decide (s.phase = .idle) && !s.input.rst

/-- What every edge does first: the inputs move on, and the two pulses end (`done` R39, `red_start` R110). -/
def State.advance (s : State) : State :=
  { s with inputs := s.inputs.tail, done := false, redStart := false }

/-- Reset (R144, R41): the reset state, whatever the core was doing (R145); what the neighbours drive goes on. -/
def State.resetEdge (s : State) : State :=
  { State.reset with inputs := s.inputs, draws := s.draws }

/-- The way a command will take in BUSY, by its command byte alone (R10, R150): an FMUL or FSQR goes to its request
first. -/
def Work.start (op : OpByte) : Work :=
  match (decodeOp op).toOption with
  | some .fmul => .toRequest (Config.requestCycle .fmul) (Config.latency (some .fmul) - Config.requestCycle .fmul)
  | some .fsqr => .toRequest (Config.requestCycle .fsqr) (Config.latency (some .fsqr) - Config.requestCycle .fsqr)
  | k => .running (Config.latency k)

/-- One more edge in BUSY, where RESULT and CODE may hold any value (R39, R40). -/
def State.stayBusy (w : Work) (s : State) : State :=
  { s with
    phase := .busy w
    result := Config.anyResult s.draws
    code := match (Config.anyCode s.draws).toNat with
      | 0 => .ok
      | 1 => .outOfRange
      | 2 => .contract
      | _ => .illegal
    draws := s.draws + 1 }

/-- The latches loaded from the command port (R27). -/
def State.capture (c : Cmd) (s : State) : State := { s with op := c.op, a := c.a, b := c.b, e := c.e }

/-- Acceptance (R37): the operands captured, VALID 0, BUSY. The handshake does not inspect OP (R61). -/
def State.accept (c : Cmd) (s : State) : State :=
  { (s.capture c).stayBusy (Work.start c.op) with valid := false }

/-- The captured command word (R27). -/
def State.latched (s : State) : Cmd := ⟨s.op, s.a, s.b, s.e⟩

/-- The request of `REDUCE(x)` (R110): `red_x` driven and held, `red_start` for one cycle. -/
def State.issue (x : WideWord) (after : Nat) (s : State) : State :=
  { s.stayBusy (.asked x after) with redStart := true }

/-- What `red_r` carries at an edge with `red_done = 1` while `red_x = x` (R108, R110, R115). -/
def Inputs.answer (i : Inputs) (x : WideWord) : FieldWord := i.redR.getD (Config.reducer x)

/-- What `REDUCE(x)` returns to the command (R110): the sampled `red_r` where this command has sampled one (R115),
else the modelled reducer's answer `REDUCER(x)` (R108). -/
def State.reduce (s : State) (x : WideWord) : FieldWord :=
  match s.phase with
  | .busy (.answered r _) => r
  | _ => Config.reducer x

end Sys2Proof.Machine
end

