-- ==== Sys2Proof/Machine/Reduce.lean ====
section
/-!
DEFINITION. ConditionalReduce and the command CRED (42_conditional_reduce.md R91 to R97).
-/

namespace Sys2Proof.Machine

/-- `CondReduce5(v)` (R92): one subtraction of the zero-extended modulus, then the low limbs of the difference or, on
a borrow, of `v`. -/
def condReduce5 (p : Modulus) (v : List Limb) : List Limb :=
  let (t, bo) := subLimbs v (modulusLimbs5 p)
  select bo (v.take 4) (t.take 4)

/-- The rule of CRED (R91). -/
def credRule (p : Modulus) (a : FieldWord) (e : Limb) : Completion :=
  if val (credLimbs a e) < 2 * p.val then .ok (toWide (condReduce5 p (credLimbs a e))) else .contract

/-- CRED v, with `v = {e, a}` (R91). -/
def execCred (a : FieldWord) (e : Limb) (s : State) : Host.Outcome State Fault Refusal :=
  .next (s.finish (credRule Config.modulus a e))

end Sys2Proof.Machine
end

