-- ==== Sys2Proof/Machine/Field.lean ====
section
/-!
DEFINITION. FADD and FSUB (43_field_add_sub.md R98 to R105).
-/

namespace Sys2Proof.Machine

/-- Is a value a field element, `value < P` (R98, R127)? -/
def canonical (p : Modulus) (x : FieldWord) : Bool := decide (x.toNat < p.val)

/-- The sum of R98: 4 limbs with the carry folded in as the fifth, then CondReduce5. -/
def addReduce (p : Modulus) (a b : FieldWord) : List Limb :=
  let (s, c) := addLimbs (fieldLimbs a) (fieldLimbs b)
  condReduce5 p (s ++ [BitVec.ofNat 64 c.toNat])

/-- The rule of FADD (R98). -/
def faddRule (p : Modulus) (a b : FieldWord) : Completion :=
  if canonical p a && canonical p b then .ok (toWide (addReduce p a b)) else .contract

/-- FADD a, b (R98). -/
def execFadd (a b : FieldWord) (s : State) : Host.Outcome State Fault Refusal :=
  .next (s.finish (faddRule Config.modulus a b))

/-- The difference of R101, the "after" form: subtract, add `P` to the difference, and keep that where the
subtraction borrowed. -/
def subCorrect (p : Modulus) (a b : FieldWord) : List Limb :=
  let (d, bo) := subLimbs (fieldLimbs a) (fieldLimbs b)
  let (t, _) := addLimbs d (modulusLimbs4 p)
  select bo t d

/-- The "before" form of R103, which the core does not use: `(a + P) - b` over 5 limbs, then a conditional
reduction. -/
def subCorrectBefore (p : Modulus) (a b : FieldWord) : List Limb :=
  let (s, _) := addLimbs (credLimbs a 0) (modulusLimbs5 p)
  let (v, _) := subLimbs s (credLimbs b 0)
  condReduce5 p v

/-- The rule of FSUB (R101). -/
def fsubRule (p : Modulus) (a b : FieldWord) : Completion :=
  if canonical p a && canonical p b then .ok (toWide (subCorrect p a b)) else .contract

/-- FSUB a, b (R101). -/
def execFsub (a b : FieldWord) (s : State) : Host.Outcome State Fault Refusal :=
  .next (s.finish (fsubRule Config.modulus a b))

end Sys2Proof.Machine
end

