-- ==== Sys2Proof/Machine/Convert.lean ====
section
/-!
DEFINITION. FROM and FOUT (45_conversion.md R118 to R124).
-/

namespace Sys2Proof.Machine

/-- The rule of FROM (R119): a range check, never a reduction (R121). -/
def fromRule (p : Modulus) (n : FieldWord) : Completion :=
  if n.toNat ≥ p.val then .outOfRange else .ok (toWide (fieldLimbs n))

/-- FROM n (R119). -/
def execFrom (n : FieldWord) (s : State) : Host.Outcome State Fault Refusal :=
  .next (s.finish (fromRule Config.modulus n))

/-- The rule of FOUT (R122): the identity on field elements. -/
def foutRule (p : Modulus) (a : FieldWord) : Completion :=
  if canonical p a then .ok (toWide (fieldLimbs a)) else .contract

/-- FOUT a (R122). -/
def execFout (a : FieldWord) (s : State) : Host.Outcome State Fault Refusal :=
  .next (s.finish (foutRule Config.modulus a))

end Sys2Proof.Machine
end

