-- ==== Sys2Proof/Machine/Wide.lean ====
section
/-!
DEFINITION. WideMultiply and the command WMUL (41_wide_multiply.md R81 to R90).
-/

namespace Sys2Proof.Machine

/-- One pass of R82, for one limb `x` of `a`: against the limbs of `b`, over the window `r[i..i+3]` of the running
output, with the 64-bit carry; the last limb is `r[i+4] <- carry`. -/
def mulRow (x : Limb) : List Limb → List Limb → Limb → List Limb
  | y :: ys, r :: rs, carry =>
    let (hi, lo) := mul64 x y
    let t := r.toNat + lo.toNat + carry.toNat
    BitVec.ofNat 64 t :: mulRow x ys rs (BitVec.ofNat 64 (hi.toNat + t / 2 ^ 64))
  | _, _, carry => [carry]

/-- The outer passes of R82: after the pass of `a[i]`, output limb `i` is final and the rest is the next window. -/
def mulPasses : List Limb → List Limb → List Limb → List Limb
  | [], _, window => window
  | x :: xs, ys, window =>
    match mulRow x ys window 0 with
    | [] => []
    | low :: rest => low :: mulPasses xs ys rest

/-- `WideMultiply(a, b)` by the reference algorithm of R82: the running output starts at zero. -/
def wideMultiply (xs ys : List Limb) : List Limb := mulPasses xs ys (ys.map fun _ => 0#64)

/-- The rule of WMUL (R85): no precondition, no reduction. -/
def wmulRule (a b : FieldWord) : Completion := .ok (toWide (wideMultiply (fieldLimbs a) (fieldLimbs b)))

/-- WMUL a, b (R85). -/
def execWmul (a b : FieldWord) (s : State) : Host.Outcome State Fault Refusal := .next (s.finish (wmulRule a b))

end Sys2Proof.Machine
end

