-- ==== Sys2Proof/Machine/FieldMul.lean ====
section
/-!
DEFINITION. FMUL and FSQR (44_field_mul_square.md R106 to R117): the wide product, and what `REDUCE` answers for it.
-/

namespace Sys2Proof.Machine

/-- What an FMUL sends to the reducer, if its operands meet its precondition (R111). -/
def fmulRequest (p : Modulus) (a b : FieldWord) : Option WideWord :=
  if canonical p a && canonical p b then some (toWide (wideMultiply (fieldLimbs a) (fieldLimbs b))) else none

/-- What an FSQR sends to the reducer: `WideMultiply(a, a)`, no other function (R89, R113). -/
def fsqrRequest (p : Modulus) (a : FieldWord) : Option WideWord :=
  if canonical p a then some (toWide (wideMultiply (fieldLimbs a) (fieldLimbs a))) else none

/-- How FMUL and FSQR end (R111, R113): on a violation no request; else the reducer's answer, unchecked and
zero-extended (R112, R115). -/
def reduceRule (request : Option WideWord) (reduce : WideWord → FieldWord) : Completion :=
  match request with
  | some x => .ok (toWide (fieldLimbs (reduce x)))
  | none => .contract

/-- FMUL a, b (R111). -/
def execFmul (a b : FieldWord) (s : State) : Host.Outcome State Fault Refusal :=
  .next (s.finish (reduceRule (fmulRequest Config.modulus a b) s.reduce))

/-- FSQR a (R113). -/
def execFsqr (a : FieldWord) (s : State) : Host.Outcome State Fault Refusal :=
  .next (s.finish (reduceRule (fsqrRequest Config.modulus a) s.reduce))

/-- What a command sends to the reducer: an FMUL or FSQR with valid operands its product, any other command nothing
(R110). -/
def requestOf (p : Modulus) : Instr → Option WideWord
  | .fmul a b => fmulRequest p a b
  | .fsqr a => fsqrRequest p a
  | .wmul _ _ => none
  | .cred _ _ => none
  | .fadd _ _ => none
  | .fsub _ _ => none
  | .fromInt _ => none
  | .fout _ => none

end Sys2Proof.Machine
end

