-- ==== Sys2Proof/Machine/Dispatch.lean ====
section
/-!
DEFINITION. The meaning of every command (30_encoding.md R57), one arm each.
-/

namespace Sys2Proof.Machine

/-- What a command does when it completes (R38): one direct call of its meaning. -/
def exec (i : Instr) (s : State) : Host.Outcome State Fault Refusal :=
  match i with
  | .wmul a b => Sys2Proof.Machine.execWmul a b s
  | .cred a e => Sys2Proof.Machine.execCred a e s
  | .fadd a b => Sys2Proof.Machine.execFadd a b s
  | .fsub a b => Sys2Proof.Machine.execFsub a b s
  | .fmul a b => Sys2Proof.Machine.execFmul a b s
  | .fsqr a => Sys2Proof.Machine.execFsqr a s
  | .fromInt n => Sys2Proof.Machine.execFrom n s
  | .fout a => Sys2Proof.Machine.execFout a s

end Sys2Proof.Machine
end

