-- ==== Sys2Proof/Machine/Clock.lean ====
section
/-!
DEFINITION. The core's clock edges in BUSY (10_state.md R38, R39; 44_field_mul_square.md R110; 70_reset_and_hazards.md
R150): the command in progress moves on, sends its reducer request, waits, and completes.
-/

namespace Sys2Proof.Machine

/-- The completion edge (R38): decode the captured byte, an illegal one first of all (R135), else run the command. -/
def State.runLatched (s : State) : Host.Outcome State Fault Refusal :=
  match decode s.latched with
  | .ok i => exec i s
  | .error _ => .next s.raiseIllegal

/-- The request the captured command makes, if it makes one. -/
def State.request? (s : State) : Option WideWord :=
  match decode s.latched with
  | .ok i => requestOf Config.modulus i
  | .error _ => none

/-- One edge in BUSY without reset. -/
def State.busyEdge (i : Inputs) (w : Work) (s : State) : Host.Outcome State Fault Refusal :=
  match w with
  | .running (n + 2) => .next (s.stayBusy (.running (n + 1)))
  | .running _ => s.runLatched
  | .toRequest (n + 2) after => .next (s.stayBusy (.toRequest (n + 1) after))
  | .toRequest _ after =>
    match s.request?, after with
    | some x, after => .next (s.issue x after)
    | none, 0 => s.runLatched
    | none, n + 1 => .next (s.stayBusy (.running (n + 1)))
  | .asked x after =>
    match i.redDone, after with
    | false, after => .next (s.stayBusy (.asked x after))
    | true, 0 => State.runLatched { s with phase := .busy (.answered (i.answer x) 0) }
    | true, n + 1 => .next (s.stayBusy (.answered (i.answer x) (n + 1)))
  | .answered r (n + 2) => .next (s.stayBusy (.answered r (n + 1)))
  | .answered _ _ => s.runLatched

/-- One edge in IDLE without reset: a presented command is accepted, since `cmd_ready = 1` (R37); a `red_done` finds
no request and is ignored (R110). -/
def State.idleEdge (i : Inputs) (s : State) : State :=
  if i.cmdValid then s.accept i.cmd else s

/-- One rising edge of `clk` with the inputs `i`, on a state whose pulses have ended. Reset wins over everything else
(R136). -/
def State.edge (i : Inputs) (s : State) : Host.Outcome State Fault Refusal :=
  if i.rst then .next s.resetEdge
  else
    match s.phase with
    | .idle => .next (s.idleEdge i)
    | .busy w => s.busyEdge i w

/-- The state in which the captured command is due at the coming edge, with idle inputs there. RESULT, STATUS.CODE
and `done` stand as they were (DESIGN CHOICE, assumption 5): R40 gives RESULT and CODE any value in this BUSY state, and
a core that had accepted the command would show `done = 0` here (R39). The step overwrites all three. -/
def State.withCommandDue (s : State) (c : Cmd) : State :=
  { s.capture c with valid := false, phase := .busy (.running 1), inputs := Inputs.idle :: s.inputs }

end Sys2Proof.Machine
end

