-- ==== Sys2Proof/Machine/Step.lean ====
section
/-!
DEFINITION. The step: one rising edge of `clk` (10_state.md R36), with what the input ports carry at it.
-/

namespace Sys2Proof.Machine

/-- One clock edge. -/
def step (s : State) : Host.Outcome State Fault Refusal := s.advance.edge s.input

/-- `s` with the command of a table word captured and due (assumption 5): the very next step decodes and runs it. -/
def State.withFetchWord (s : State) (nbits w : Nat) : State := s.withCommandDue (tableCmd nbits w)

end Sys2Proof.Machine
end

