-- ==== Sys2Proof/Machine/Ports.lean ====
section
/-!
DEFINITION. The output ports (10_state.md R36) as views of the state, and the host's reads (R24, R40, R48, R151). A
read is a function of the state, so it has no side effect (R48).
-/

namespace Sys2Proof.Machine

/-- STATUS.CODE as the register holds it (R25). -/
def Code.bits : Code → BitVec 3
  | .ok => 0
  | .outOfRange => 1
  | .contract => 2
  | .illegal => 3

/-- STATUS.BUSY and the port `busy`: 1 exactly in BUSY (R28). -/
def State.busy (s : State) : Bool :=
  match s.phase with
  | .idle => false
  | .busy _ => true

/-- The STATUS register (R23): `{00, BUSY, FAULT, CODE, VALID}`, bits [7:6] hardwired to 0 (R29). -/
def State.status (s : State) : BitVec 8 :=
  0#2 ++ BitVec.ofBool s.busy ++ BitVec.ofBool s.fault ++ s.code.bits ++ BitVec.ofBool s.valid

/-- The value of `red_x`, where a request holds it (R110, R153); outside a request the spec gives the port no value. -/
def State.redX (s : State) : Option WideWord :=
  match s.phase with
  | .busy (.asked x _) => some x
  | _ => none

/-- The output ports (R36). -/
structure Outputs where
  cmdReady : Bool
  busy : Bool
  done : Bool
  result : WideWord
  status : BitVec 8
  redStart : Bool
  redX : Option WideWord
  deriving DecidableEq, Repr

/-- What the output ports carry before the coming edge; `cmd_ready` also reads `rst` there (R37). -/
def State.outputs (s : State) : Outputs where
  cmdReady := s.cmdReady
  busy := s.busy
  done := s.done
  result := s.result
  status := s.status
  redStart := s.redStart
  redX := s.redX

/-- The host reads RESULT for a value: refused in BUSY (R40), a fault with VALID = 0 (R24), else what it holds. -/
def State.readResult (s : State) : Host.Outcome WideWord Fault Refusal :=
  if s.busy then .refused .readWhileBusy
  else if s.valid then .next s.result
  else .fault .resultHasNoValue

/-- The host reads STATUS.CODE: refused in BUSY (R40). VALID, FAULT and BUSY can be read at any time. -/
def State.readCode (s : State) : Host.Outcome Code Fault Refusal :=
  if s.busy then .refused .readWhileBusy else .next s.code

/-- The input ports of a host that presents the command `c` at an edge. -/
def Inputs.present (c : Cmd) : Inputs := { Inputs.idle with cmdValid := true, cmd := c }

end Sys2Proof.Machine
end

