-- ==== Sys2Proof/Machine/Assemble.lean ====
section
/-!
DEFINITION. The assembler (30_encoding.md R64 to R66): the host's own notation, and its substitution of `RES`, made
when a command is presented. It is no part of the step.
-/

namespace Sys2Proof.Machine

/-- A line as one core command with its operands: a pseudo-instruction expands into exactly one (R66). -/
def expand : AsmLine → Opcode × AsmOperand × Option AsmOperand
  | .wmul a b => (.wmul, a, some b)
  | .cred v => (.cred, v, none)
  | .fadd a b => (.fadd, a, some b)
  | .fsub a b => (.fsub, a, some b)
  | .fmul a b => (.fmul, a, some b)
  | .fsqr a => (.fsqr, a, none)
  | .fromInt n => (.fromInt, n, none)
  | .fout a => (.fout, a, none)
  | .fneg a => (.fsub, .lit 0, some a)
  | .fdbl a => (.fadd, a, some a)
  | .fzero => (.fromInt, .lit 0, none)
  | .fone => (.fromInt, .lit 1, none)
  | .wsqr a => (.wmul, a, some a)

/-- The value of an operand in a field of `width` bits (R64): a literal must fit, `RES` is the low bits of RESULT and
needs STATUS.VALID = 1, `P` is the modulus. -/
def operandValue (p : Modulus) (width : Nat) (s : State) : AsmOperand → Host.Outcome Nat Fault Refusal
  | .lit n => if n < 2 ^ width then .next n else .refused .literalOutOfRange
  | .res => if s.valid then .next (s.result.toNat % 2 ^ width) else .refused .resWithoutValue
  | .modulus => .next p.val

/-- The operand field of a command: 320 bits for CRED, 256 for every other (R64). -/
def operandWidth : Opcode → Nat
  | .cred => 320
  | .wmul | .fadd | .fsub | .fmul | .fsqr | .fromInt | .fout => 256

/-- The command word a line assembles to in a state that `RES` is taken from (R65): OP of R57, the operands in the
fields of R58, `E` the bits of the CRED operand above 255, every ignored field zero. -/
def assemble (p : Modulus) (s : State) (l : AsmLine) : Host.Outcome Cmd Fault Refusal :=
  let (k, x, y?) := expand l
  match operandValue p (operandWidth k) s x with
  | .fault f => .fault f
  | .refused r => .refused r
  | .next v =>
    let word (b : Nat) : Cmd := ⟨k.byte, BitVec.ofNat 256 v, BitVec.ofNat 256 b, BitVec.ofNat 64 (v / 2 ^ 256)⟩
    match y? with
    | none => .next (word 0)
    | some y =>
      match operandValue p (operandWidth k) s y with
      | .fault f => .fault f
      | .refused r => .refused r
      | .next b => .next (word b)

/-- The eight mnemonics and five pseudo-instructions, as the lines write them (R64, R66). -/
def lineOf (mnemonic : String) (operands : List AsmOperand) : Option AsmLine :=
  match mnemonic, operands with
  | "WMUL", [a, b] => some (.wmul a b)
  | "CRED", [v] => some (.cred v)
  | "FADD", [a, b] => some (.fadd a b)
  | "FSUB", [a, b] => some (.fsub a b)
  | "FMUL", [a, b] => some (.fmul a b)
  | "FSQR", [a] => some (.fsqr a)
  | "FROM", [n] => some (.fromInt n)
  | "FOUT", [a] => some (.fout a)
  | "FNEG", [a] => some (.fneg a)
  | "FDBL", [a] => some (.fdbl a)
  | "FZERO", [] => some .fzero
  | "FONE", [] => some .fone
  | "WSQR", [a] => some (.wsqr a)
  | _, _ => none

/-- A space or a tab (PRESUMED as the white space of a line, assumption 10). -/
def isBlank (c : Char) : Bool := c == ' ' || c == '\t'

/-- A text without the blanks at its two ends. -/
def trim (cs : List Char) : List Char := ((cs.dropWhile isBlank).reverse.dropWhile isBlank).reverse

/-- The parts of a text between commas. -/
def splitCommas : List Char → List (List Char)
  | [] => [[]]
  | ',' :: cs => [] :: splitCommas cs
  | c :: cs =>
    match splitCommas cs with
    | [] => [[c]]
    | part :: parts => (c :: part) :: parts

/-- The value of one digit, in any base up to sixteen. -/
def digitValue (c : Char) : Option Nat :=
  if '0' ≤ c ∧ c ≤ '9' then some (c.toNat - 48)
  else if 'a' ≤ c ∧ c ≤ 'f' then some (c.toNat - 87)
  else if 'A' ≤ c ∧ c ≤ 'F' then some (c.toNat - 55)
  else none

/-- The digits of a literal in a base, from the most significant. -/
def digitsValue (base : Nat) : List Char → Nat → Option Nat
  | [], acc => some acc
  | c :: cs, acc =>
    match digitValue c with
    | some d => if d < base then digitsValue base cs (acc * base + d) else none
    | none => none

/-- An operand: `RES`, `P`, `0x` and hex digits, or decimal digits (R64). -/
def parseOperand : List Char → Option AsmOperand
  | ['R', 'E', 'S'] => some .res
  | ['P'] => some .modulus
  | '0' :: 'x' :: d :: ds => (digitsValue 16 (d :: ds) 0).map .lit
  | d :: ds => (digitsValue 10 (d :: ds) 0).map .lit
  | [] => none

/-- The operands of a line: none, or texts between commas. -/
def parseOperands (cs : List Char) : Option (List AsmOperand) :=
  match trim cs with
  | [] => some []
  | body => (splitCommas body).mapM fun part => parseOperand (trim part)

/-- One line of assembly text (R64): a mnemonic in capitals or not, its operands, an optional comment after `;`. -/
def parseLine (text : List Char) : Host.Outcome AsmLine Fault Refusal :=
  let body := trim (text.takeWhile fun c => c != ';')
  let mnemonic := (body.takeWhile fun c => !isBlank c).map Char.toUpper
  match (parseOperands (body.dropWhile fun c => !isBlank c)).bind (lineOf (String.ofList mnemonic)) with
  | some l => .next l
  | none => .refused .notAnAssemblerLine

end Sys2Proof.Machine
end

