-- ==== Sys2Proof/Safety.lean ====
section
/-!
DEFINITION. What counts as a safe run, in the terms claims use: the recorded fault (60_exceptions.md R130), the duties
of the host and of the reducer (70_reset_and_hazards.md R149, R151 to R153), the word each assembler line stands for
(30_encoding.md R64 to R66), and the invariant of the machine.
-/

namespace Sys2Proof

open Sys2Proof.Machine

/-- The operands a line names (R64, R66). -/
def AsmLine.operands : AsmLine → List AsmOperand
  | .wmul a b => [a, b]
  | .cred v => [v]
  | .fadd a b => [a, b]
  | .fsub a b => [a, b]
  | .fmul a b => [a, b]
  | .fsqr a => [a]
  | .fromInt n => [n]
  | .fout a => [a]
  | .fneg a => [a]
  | .fdbl a => [a]
  | .fzero => []
  | .fone => []
  | .wsqr a => [a]

/-- What an operand stands for in a place of `width` bits (R64): itself, the low bits of RESULT, or the modulus. -/
def AsmOperand.number (p : Modulus) (s : State) (width : Nat) : AsmOperand → Nat
  | .lit n => n
  | .res => (s.result.extractLsb' 0 width).toNat
  | .modulus => p.val

/-- An operand in an A or B field (R64). -/
def AsmOperand.field (p : Modulus) (s : State) (x : AsmOperand) : FieldWord := BitVec.ofNat 256 (x.number p s 256)

/-- The word of each line, row by row (R57, R58, R64, R65), a pseudo-instruction's that of its expansion (R66). -/
def AsmLine.word (p : Modulus) (s : State) : AsmLine → Cmd
  | .wmul a b => ⟨0x01, a.field p s, b.field p s, 0⟩
  | .cred v => ⟨0x02, BitVec.ofNat 256 (v.number p s 320 % 2 ^ 256), 0, BitVec.ofNat 64 (v.number p s 320 >>> 256)⟩
  | .fadd a b => ⟨0x03, a.field p s, b.field p s, 0⟩
  | .fsub a b => ⟨0x04, a.field p s, b.field p s, 0⟩
  | .fmul a b => ⟨0x05, a.field p s, b.field p s, 0⟩
  | .fsqr a => ⟨0x06, a.field p s, 0, 0⟩
  | .fromInt n => ⟨0x07, n.field p s, 0, 0⟩
  | .fout a => ⟨0x08, a.field p s, 0, 0⟩
  | .fneg a => ⟨0x04, 0, a.field p s, 0⟩
  | .fdbl a => ⟨0x03, a.field p s, a.field p s, 0⟩
  | .fzero => ⟨0x07, 0, 0, 0⟩
  | .fone => ⟨0x07, 1, 0, 0⟩
  | .wsqr a => ⟨0x01, a.field p s, a.field p s, 0⟩

end Sys2Proof

namespace Sys2Proof.Machine

/-- No assertion has tripped since reset: no CONTRACT and no ILLEGAL completion (R26, R130). A claim about results
takes this as a premise. -/
def State.noFaultRecorded (s : State) : Prop := s.fault = false

/-- RESULT may be used: the command has completed and left a defined value (R24, R151). -/
def State.resultUsable (s : State) : Prop := s.phase = .idle ∧ s.valid = true

/-- The host's duty on the command port (R152): a command presented and not accepted at this edge is, if it is still
presented at the next, the same command. -/
def State.hostHoldsCommand (s : State) : Prop :=
  s.input.cmdValid = true → s.cmdReady = false → s.advance.input.cmdValid = true → s.advance.input.cmd = s.input.cmd

/-- The reducer's duty at an edge (R108, R109, R149, R153): it answers only an outstanding request, and with
`REDUCER(red_x)`. -/
def State.reducerKeepsDuty (s : State) : Prop :=
  s.input.redDone = true → ∃ x, s.redX = some x ∧ s.input.answer x = Config.reducer x

/-- The operands break the command's precondition (R131): the list of the rule itself. -/
def violatesPrecondition (p : Modulus) : Instr → Prop
  | .wmul _ _ => False
  | .cred a e => 2 * p.val ≤ a.toNat + 2 ^ 256 * e.toNat
  | .fadd a b => p.val ≤ a.toNat ∨ p.val ≤ b.toNat
  | .fsub a b => p.val ≤ a.toNat ∨ p.val ≤ b.toNat
  | .fmul a b => p.val ≤ a.toNat ∨ p.val ≤ b.toNat
  | .fsqr a => p.val ≤ a.toNat
  | .fromInt _ => False
  | .fout a => p.val ≤ a.toNat

/-- A command byte that never waits for the reducer: every byte but FMUL's and FSQR's (R110). -/
def reducerFree (op : OpByte) : Prop := decodeOp op ≠ .ok .fmul ∧ decodeOp op ≠ .ok .fsqr

/-- What decides WHEN things happen is the same in two input vectors: reset, `cmd_valid`, the command byte and
`red_done`; the operands and `red_r` are free (R150). -/
def Inputs.sameControl (i j : Inputs) : Prop :=
  i.rst = j.rst ∧ i.cmdValid = j.cmdValid ∧ i.cmd.op = j.cmd.op ∧ i.redDone = j.redDone

/-- Two states of two runs that differ only in data: both idle, or both the same number of edges from completion,
with the same control to come, and no command that waits for the reducer (R150). -/
def sameTiming (s t : State) : Prop :=
  (s.phase = .idle ∧ t.phase = .idle ∨ ∃ left, s.phase = .busy (.running left) ∧ t.phase = .busy (.running left)) ∧
  s.done = t.done ∧
  List.Forall₂ Inputs.sameControl s.inputs t.inputs ∧
  ∀ i ∈ s.inputs, i.cmdValid = true → reducerFree i.cmd.op

/-- The invariant of the machine. VALID = 1 means OK and IDLE (R24, R40); a recorded CONTRACT or ILLEGAL stands beside
FAULT (R26); `red_start` only beside an outstanding request and `done` only in IDLE (R39, R110); an outstanding request
holds the product of the captured command, whose operands met its precondition (R110, R111); the core waits for a
request only in FMUL and FSQR, and a command that makes a request completes only with an answer (R110). -/
def State.Inv (s : State) : Prop :=
  (s.valid = true → s.phase = .idle ∧ s.code = .ok) ∧
  (s.phase = .idle → s.code = .contract ∨ s.code = .illegal → s.fault = true) ∧
  (s.redStart = true → ∃ x after, s.phase = .busy (.asked x after)) ∧
  (s.done = true → s.phase = .idle) ∧
  (∀ wait after, s.phase = .busy (.toRequest wait after) →
    decodeOp s.op = .ok .fmul ∨ decodeOp s.op = .ok .fsqr) ∧
  (∀ x after, s.phase = .busy (.asked x after) → s.request? = some x) ∧
  (∀ r left, s.phase = .busy (.answered r left) → s.request?.isSome = true) ∧
  (∀ left, s.phase = .busy (.running left) → s.request? = none)

end Sys2Proof.Machine
end

