-- ==== Sys2Proof/Certificates/Slice0/Obligations.lean ====
section
/-!
DEFINITION. The statements for the provers, from the numbered rules of spec/. `P` is `Config.P`, any modulus the
hardware can be built for; a statement about a free value holds for every value of it.
-/

open Sys2Proof Sys2Proof.Machine

/-! ## Encoding (30_encoding.md) -/

/-- R55, R57, R58, R65: every command, with every operand value, is decoded from its own word. -/
def Obligations.DecodeOfEncode : Prop :=
  ∀ i : Instr, decodeWord (encode i) = .ok i

/-- R57, R58, R65: a word as the assembler writes it is the encoding of the command it decodes to. -/
def Obligations.EncodeOfDecode : Prop :=
  ∀ (w : CmdWord) (i : Instr), (Cmd.ofBits w).wellFormed = true → decodeWord w = .ok i → encode i = w

/-- R57: exactly eight command bytes select a command, each its own. -/
def Obligations.EightCommandBytes : Prop :=
  decodeOp 0x01 = .ok .wmul ∧ decodeOp 0x02 = .ok .cred ∧ decodeOp 0x03 = .ok .fadd ∧ decodeOp 0x04 = .ok .fsub ∧
  decodeOp 0x05 = .ok .fmul ∧ decodeOp 0x06 = .ok .fsqr ∧ decodeOp 0x07 = .ok .fromInt ∧ decodeOp 0x08 = .ok .fout ∧
  ∀ op : OpByte, (∃ k, decodeOp op = .ok k) ↔ 1 ≤ op.toNat ∧ op.toNat ≤ 8

/-- R60: Decode is total on all byte values and reads OP alone: no operand changes whether a word is legal, which
command it selects, or why it is illegal. -/
def Obligations.DecodeReadsOpAlone : Prop :=
  ∀ c d : Cmd, c.op = d.op → (decode c).map Instr.opcode = (decode d).map Instr.opcode

/-- R58: which fields each command reads; an ignored field is any value in, and zero out of the assembler. -/
def Obligations.OperandUse : Prop :=
  ∀ (a b : FieldWord) (e : Limb),
    (decode ⟨0x01, a, b, e⟩ = .ok (.wmul a b) ∧ encodeCmd (.wmul a b) = ⟨0x01, a, b, 0⟩) ∧
    (decode ⟨0x02, a, b, e⟩ = .ok (.cred a e) ∧ encodeCmd (.cred a e) = ⟨0x02, a, 0, e⟩) ∧
    (decode ⟨0x03, a, b, e⟩ = .ok (.fadd a b) ∧ encodeCmd (.fadd a b) = ⟨0x03, a, b, 0⟩) ∧
    (decode ⟨0x04, a, b, e⟩ = .ok (.fsub a b) ∧ encodeCmd (.fsub a b) = ⟨0x04, a, b, 0⟩) ∧
    (decode ⟨0x05, a, b, e⟩ = .ok (.fmul a b) ∧ encodeCmd (.fmul a b) = ⟨0x05, a, b, 0⟩) ∧
    (decode ⟨0x06, a, b, e⟩ = .ok (.fsqr a) ∧ encodeCmd (.fsqr a) = ⟨0x06, a, 0, 0⟩) ∧
    (decode ⟨0x07, a, b, e⟩ = .ok (.fromInt a) ∧ encodeCmd (.fromInt a) = ⟨0x07, a, 0, 0⟩) ∧
    (decode ⟨0x08, a, b, e⟩ = .ok (.fout a) ∧ encodeCmd (.fout a) = ⟨0x08, a, 0, 0⟩)

/-- Words of programs P1, P3 and P4 (95_test_vectors.md section 5), as numbers with OP in bits [7:0], A from bit 8, B
from bit 264 and E from bit 520. -/
def Obligations.ListedWordsDecode : Prop :=
  decodeTableWord 584 (0x07 + 7 * 2 ^ 8) = some (.fromInt 7) ∧
  decodeTableWord 584 (0x03 + 1 * 2 ^ 8 + 2 * 2 ^ 264) = some (.fadd 1 2) ∧
  decodeTableWord 584 (0x01 + 2 ^ 128 * 2 ^ 8 + 2 ^ 127 * 2 ^ 264) = some (.wmul (2 ^ 128) (2 ^ 127)) ∧
  decodeTableWord 584 (0x02 + 2 ^ 255 * 2 ^ 8 + 1 * 2 ^ 520) = some (.cred (2 ^ 255) 1) ∧
  decodeTableWord 584 0x09 = none

/-! ## The datapath (40_limb_primitives.md to 43_field_add_sub.md) -/

/-- R73's law: the sum limbs and the carry out are the exact sum, for vectors of any one width. -/
def Obligations.AddLimbsLaw : Prop :=
  ∀ xs ys : List Limb, xs.length = ys.length →
    (addLimbs xs ys).1.length = xs.length ∧
    val (addLimbs xs ys).1 + (addLimbs xs ys).2.toNat * 2 ^ (64 * xs.length) = val xs + val ys ∧
    ((addLimbs xs ys).2 = true ↔ 2 ^ (64 * xs.length) ≤ val xs + val ys)

/-- R74's law: the difference limbs are the difference modulo the width, and the borrow out says which is less. -/
def Obligations.SubLimbsLaw : Prop :=
  ∀ xs ys : List Limb, xs.length = ys.length →
    (subLimbs xs ys).1.length = xs.length ∧
    (val (subLimbs xs ys).1 : Int) = ((val xs : Int) - val ys) % 2 ^ (64 * xs.length) ∧
    ((subLimbs xs ys).2 = true ↔ val xs < val ys)

/-- R76: the carry found by comparing the sum with an operand is the carry of R73. -/
def Obligations.CarryByComparisonAgrees : Prop :=
  ∀ (x y : Limb) (c : Bool), carryByComparison (addStep x y c).1 x c = (addStep x y c).2

/-- R81, R86: the reference algorithm of R82 is the exact product of every two 4-limb vectors, on 8 limbs. -/
def Obligations.WideMultiplyExact : Prop :=
  ∀ xs ys : List Limb, xs.length = 4 → ys.length = 4 →
    (wideMultiply xs ys).length = 8 ∧ val (wideMultiply xs ys) = val xs * val ys

/-- R93: the borrow out of the subtraction of CondReduce5 says whether `v < P`. -/
def Obligations.BorrowSaysBelowModulus : Prop :=
  ∀ (p : Modulus) (v : List Limb), v.length = 5 → ((subLimbs v (modulusLimbs5 p)).2 = true ↔ val v < p.val)

/-- R94: what CondReduce5 drops is zero: the top limb of the difference without a borrow, of `v` with one. -/
def Obligations.DiscardedLimbsAreZero : Prop :=
  ∀ (p : Modulus) (v : List Limb), v.length = 5 → val v < 2 * p.val →
    ((subLimbs v (modulusLimbs5 p)).2 = false → (subLimbs v (modulusLimbs5 p)).1.drop 4 = [0]) ∧
    ((subLimbs v (modulusLimbs5 p)).2 = true → v.drop 4 = [0])

/-- R96: conditional reduction is correct, as a datapath for every modulus and as the command. -/
def Obligations.ConditionalReduceCorrect : Prop :=
  (∀ (p : Modulus) (v : List Limb), v.length = 5 →
    (p.val ≤ val v → val v < 2 * p.val → val (condReduce5 p v) = val v - p.val) ∧
    (val v < p.val → val (condReduce5 p v) = val v)) ∧
  (∀ (a : FieldWord) (e : Limb) (s : State), a.toNat + 2 ^ 256 * e.toNat < 2 * Config.P →
    ∃ t, exec (.cred a e) s = .next t ∧ t.result.toNat = (a.toNat + 2 ^ 256 * e.toNat) % Config.P ∧
      t.result.toNat < Config.P)

/-- R103: the "before" and the "after" form of the modular subtraction agree on every two field elements. -/
def Obligations.SubtractionFormsAgree : Prop :=
  ∀ (p : Modulus) (a b : FieldWord), a.toNat < p.val → b.toNat < p.val →
    val (subCorrectBefore p a b) = val (subCorrect p a b)

/-! ## What each command does when it completes: result, STATUS, and everything else unchanged -/

/-- WMUL completes for every two operands, with the exact product (R85, R86, R129). -/
def Obligations.WmulCompletes : Prop :=
  ∀ (a b : FieldWord) (s : State), exec (.wmul a b) s =
    .next { s with
      result := BitVec.ofNat 512 (a.toNat * b.toNat), valid := true, code := .ok, phase := .idle, done := true }

/-- CRED completes for every `v < 2P`, with `v mod P` (R91, R96, R129). -/
def Obligations.CredCompletes : Prop :=
  ∀ (a : FieldWord) (e : Limb) (s : State), a.toNat + 2 ^ 256 * e.toNat < 2 * Config.P →
    exec (.cred a e) s =
      .next { s with
        result := BitVec.ofNat 512 ((a.toNat + 2 ^ 256 * e.toNat) % Config.P)
        valid := true, code := .ok, phase := .idle, done := true }

/-- FADD completes for every two field elements, with their sum mod P (R98, R99, R129). -/
def Obligations.FaddCompletes : Prop :=
  ∀ (a b : FieldWord) (s : State), a.toNat < Config.P → b.toNat < Config.P →
    exec (.fadd a b) s =
      .next { s with
        result := BitVec.ofNat 512 ((a.toNat + b.toNat) % Config.P)
        valid := true, code := .ok, phase := .idle, done := true }

/-- FSUB completes for every two field elements, with their difference mod P (R101, R102, R129). -/
def Obligations.FsubCompletes : Prop :=
  ∀ (a b : FieldWord) (s : State), a.toNat < Config.P → b.toNat < Config.P →
    exec (.fsub a b) s =
      .next { s with
        result := BitVec.ofNat 512 (((a.toNat : Int) - b.toNat) % Config.P).toNat
        valid := true, code := .ok, phase := .idle, done := true }

/-- FMUL completes for every two field elements, with what REDUCE answers for the product, unchecked and
zero-extended (R111, R112, R115): the sampled `red_r`, or `REDUCER(a*b)` where none was sampled (R108). -/
def Obligations.FmulCompletes : Prop :=
  ∀ (a b : FieldWord) (s : State), a.toNat < Config.P → b.toNat < Config.P →
    exec (.fmul a b) s =
      .next { s with
        result := (s.reduce (BitVec.ofNat 512 (a.toNat * b.toNat))).setWidth 512
        valid := true, code := .ok, phase := .idle, done := true }

/-- FSQR completes for every field element, with what REDUCE answers for the square (R113, R115). -/
def Obligations.FsqrCompletes : Prop :=
  ∀ (a : FieldWord) (s : State), a.toNat < Config.P →
    exec (.fsqr a) s =
      .next { s with
        result := (s.reduce (BitVec.ofNat 512 (a.toNat * a.toNat))).setWidth 512
        valid := true, code := .ok, phase := .idle, done := true }

/-- FROM completes for every `n < P`, with `n` (R119, R129). -/
def Obligations.FromCompletes : Prop :=
  ∀ (n : FieldWord) (s : State), n.toNat < Config.P →
    exec (.fromInt n) s =
      .next { s with result := n.setWidth 512, valid := true, code := .ok, phase := .idle, done := true }

/-- FOUT completes for every field element, with itself (R122, R129). -/
def Obligations.FoutCompletes : Prop :=
  ∀ (a : FieldWord) (s : State), a.toNat < Config.P →
    exec (.fout a) s =
      .next { s with result := a.setWidth 512, valid := true, code := .ok, phase := .idle, done := true }

/-- R9, R109, R111, R113: with any modulus and any reducer that meets `REDUCER_CORRECT(P)`, the rules of FMUL and FSQR
complete with the product and the square mod P. -/
def Obligations.ReducerContractSuffices : Prop :=
  ∀ (p : Modulus) (f : WideWord → FieldWord), ReducerCorrect p f →
    (∀ a b : FieldWord, a.toNat < p.val → b.toNat < p.val →
      ∃ r : WideWord, reduceRule (fmulRequest p a b) f = .ok r ∧ r.toNat = a.toNat * b.toNat % p.val) ∧
    (∀ a : FieldWord, a.toNat < p.val →
      ∃ r : WideWord, reduceRule (fsqrRequest p a) f = .ok r ∧ r.toNat = a.toNat * a.toNat % p.val)

/-- FMUL and FSQR under the reducer's contract (R109, R111, R113): where the answer to the product is the residue the
contract asks for, RESULT is the product mod P, a field element. -/
def Obligations.ReducedProductIsResidue : Prop :=
  (∀ (a b : FieldWord) (s : State), a.toNat < Config.P → b.toNat < Config.P →
    (s.reduce (BitVec.ofNat 512 (a.toNat * b.toNat))).toNat = a.toNat * b.toNat % Config.P →
    ∃ t, exec (.fmul a b) s = .next t ∧ t.result.toNat = a.toNat * b.toNat % Config.P ∧
      t.result.toNat < Config.P) ∧
  (∀ (a : FieldWord) (s : State), a.toNat < Config.P →
    (s.reduce (BitVec.ofNat 512 (a.toNat * a.toNat))).toNat = a.toNat * a.toNat % Config.P →
    ∃ t, exec (.fsqr a) s = .next t ∧ t.result.toNat = a.toNat * a.toNat % Config.P ∧ t.result.toNat < Config.P)

/-- R114: FSQR a and FMUL a, a leave the same state, for every `a` and every reducer. -/
def Obligations.SquareIsProductWithItself : Prop :=
  ∀ (a : FieldWord) (s : State), exec (.fsqr a) s = exec (.fmul a a) s

/-- R123: FROM n, then FOUT of its result, leaves n with CODE OK. -/
def Obligations.FromThenFout : Prop :=
  ∀ (n : FieldWord) (s : State), n.toNat < Config.P →
    ∃ t u, exec (.fromInt n) s = .next t ∧ exec (.fout (t.result.setWidth 256)) t = .next u ∧
      u.result.toNat = n.toNat ∧ u.code = .ok ∧ u.valid = true

/-- R131: a broken precondition ends in CONTRACT, with no other effect than the rule's, and nothing else does. RESULT
has no value (a free value, whose counter moves on). -/
def Obligations.ContractViolationOutcome : Prop :=
  ∀ (i : Instr) (s : State), ∃ t, exec i s = .next t ∧
    (violatesPrecondition Config.modulus i →
      t = { s with
        result := t.result, draws := t.draws
        valid := false, code := .contract, fault := true, phase := .idle, done := true }) ∧
    (¬ violatesPrecondition Config.modulus i → t.code ≠ .contract)

/-- R132: FROM of an `n >= P` ends in OUT_OF_RANGE, FAULT unchanged, and nothing else does. -/
def Obligations.OutOfRangeOutcome : Prop :=
  ∀ (i : Instr) (s : State), ∃ t, exec i s = .next t ∧
    (∀ n : FieldWord, i = .fromInt n → Config.P ≤ n.toNat →
      t = { s with
        result := t.result, draws := t.draws
        valid := false, code := .outOfRange, phase := .idle, done := true }) ∧
    (t.code = .outOfRange → ∃ n : FieldWord, i = .fromInt n ∧ Config.P ≤ n.toNat)

/-- R133: a command byte that Decode rejects goes no way to the reducer, and when due ends in ILLEGAL, whatever its
operands are. -/
def Obligations.IllegalCommandOutcome : Prop :=
  ∀ s : State, (∃ err, decodeOp s.op = .error err) →
    Work.start s.op = .running (Config.latency none) ∧ s.request? = none ∧
    ∀ left, left ≤ 1 → s.phase = .busy (.running left) → s.input.rst = false →
      ∃ t, step s = .next t ∧
        t = { s with
          result := t.result, draws := t.draws
          valid := false, code := .illegal, fault := true, phase := .idle, done := true
          redStart := false, inputs := s.inputs.tail }

/-- R22: a 4-limb result is zero-extended into RESULT. -/
def Obligations.FourLimbResultsZeroExtended : Prop :=
  ∀ (i : Instr) (s t : State), i.opcode ≠ .wmul → exec i s = .next t → t.valid = true →
    ∃ r : FieldWord, t.result = r.setWidth 512

/-- R97, R100, R104, R119, R122: an OK result of CRED, FADD, FSUB, FROM or FOUT is a field element. -/
def Obligations.FieldClosure : Prop :=
  ∀ (i : Instr) (s t : State), i.opcode ≠ .wmul → i.opcode ≠ .fmul → i.opcode ≠ .fsqr →
    exec i s = .next t → t.valid = true → t.result.toNat < Config.P

/-- R27, R39: no command writes a latch, `red_start` or what the neighbours drive, or clears FAULT, and none leaves a
request outstanding (R110). -/
def Obligations.CommandFrame : Prop :=
  ∀ (i : Instr) (s t : State), exec i s = .next t →
    t.op = s.op ∧ t.a = s.a ∧ t.b = s.b ∧ t.e = s.e ∧ t.redStart = s.redStart ∧ t.inputs = s.inputs ∧
    t.redX = none ∧ (t.fault = s.fault ∨ t.fault = true)

/-! ## STATUS (10_state.md, 60_exceptions.md) -/

/-- R29: STATUS bits [7:6] read 0 in every state. -/
def Obligations.ReservedStatusBitsReadZero : Prop :=
  ∀ s : State, s.status.extractLsb' 6 2 = 0#2

/-- R28: STATUS.BUSY is 1 exactly in BUSY; reset gives IDLE, acceptance BUSY, completion IDLE. -/
def Obligations.BusyIsThePhase : Prop :=
  (∀ s : State, s.status.getLsbD 5 = s.busy ∧ (s.busy = true ↔ s.phase ≠ .idle)) ∧
  State.reset.phase = .idle ∧
  (∀ (c : Cmd) (s : State), (s.accept c).busy = true) ∧
  (∀ s t : State, s.runLatched = .next t → t.phase = .idle)

/-- R24: what sets and clears VALID, and that RESULT read in IDLE without it faults. -/
def Obligations.ValidTracksOutcome : Prop :=
  (∀ s t : State, s.runLatched = .next t → (t.valid = true ↔ t.code = .ok)) ∧
  (∀ (c : Cmd) (s : State), (s.accept c).valid = false) ∧
  (∀ s : State, s.resetEdge.valid = false) ∧
  (∀ s : State, s.phase = .idle → s.valid = false → s.readResult = .fault .resultHasNoValue)

/-- R40: reads in BUSY are refused; in IDLE with VALID = 1 RESULT reads as it stands. -/
def Obligations.HostReads : Prop :=
  ∀ s : State,
    (s.phase ≠ .idle → s.readResult = .refused .readWhileBusy ∧ s.readCode = .refused .readWhileBusy) ∧
    (s.phase = .idle → s.valid = true → s.readResult = .next s.result) ∧
    (s.phase = .idle → s.readCode = .next s.code)

/-- R134: the STATUS register after each outcome, with FAULT clear and with FAULT set before. -/
def Obligations.StatusAfterOutcome : Prop :=
  ∀ s t : State, s.runLatched = .next t →
    (t.code = .ok → t.status = if s.fault then 0x11 else 0x01) ∧
    (t.code = .outOfRange → t.status = if s.fault then 0x12 else 0x02) ∧
    (t.code = .contract → t.status = 0x14) ∧
    (t.code = .illegal → t.status = 0x16)

/-- R26: FAULT is set exactly by CONTRACT and ILLEGAL completions, cleared only by reset, and changes nothing else:
the core goes on with FAULT = 1 as it would with FAULT = 0. -/
def Obligations.FaultIsSticky : Prop :=
  (∀ s t : State, step s = .next t → s.input.rst = false →
    (t.fault = true ↔ s.fault = true ∨ (t.done = true ∧ (t.code = .contract ∨ t.code = .illegal)))) ∧
  (∀ s t : State, step s = .next t → s.input.rst = true → t.fault = false) ∧
  (∀ s t : State, step s = .next t → s.input.rst = false →
    step { s with fault := true } = .next { t with fault := true })

/-! ## The clock edge: handshake, reset, completion (10_state.md, 70_reset_and_hazards.md) -/

/-- The captured command, when due, is what the step runs: the decoded instruction by `exec`, on the state whose inputs
have moved on and whose pulses have ended (R38, R39). These are all of the completion edges: the last of the core's own
cycles, the cycle of a request that the command turns out not to make, and the last cycle after an answer, which for an
answer that ends the command is the edge that samples it (R110). -/
def Obligations.StepRunsDecoded : Prop :=
  ∀ (s : State) (i : Instr), s.input.rst = false → decode s.latched = .ok i →
    ((∃ left, left ≤ 1 ∧ s.phase = .busy (.running left)) ∨
      (∃ wait, wait ≤ 1 ∧ s.phase = .busy (.toRequest wait 0) ∧ s.request? = none) ∨
      (∃ r left, left ≤ 1 ∧ s.phase = .busy (.answered r left)) →
      step s = exec i { s with inputs := s.inputs.tail, done := false, redStart := false }) ∧
    (∀ x : WideWord, s.phase = .busy (.asked x 0) → s.input.redDone = true →
      step s = exec i { s with
        inputs := s.inputs.tail, done := false, redStart := false
        phase := .busy (.answered (s.input.answer x) 0) })

/-- A word of the opcode table, placed by `withFetchWord`, is what the very next step runs, on the state that
`withFetchWord` makes, its inputs moved on and its pulses ended (the model's choice, assumption 5). -/
def Obligations.FetchedWordRuns : Prop :=
  ∀ (s : State) (nbits w : Nat) (i : Instr), decodeTableWord nbits w = some i →
    step (s.withFetchWord nbits w) = exec i { s with
      op := (tableCmd nbits w).op, a := (tableCmd nbits w).a, b := (tableCmd nbits w).b, e := (tableCmd nbits w).e
      valid := false, phase := .busy (.running 1), done := false, redStart := false }

/-- Every clock edge has an outcome: the core never stops (R38, R125, R137). -/
def Obligations.EveryEdgeAnswers : Prop :=
  ∀ s : State, ∃ t, step s = .next t

/-- R37: `cmd_ready` is IDLE and not reset; then a presented command is captured and the core is BUSY with VALID 0;
otherwise the command port has no effect and the command waits on it. -/
def Obligations.CommandAcceptance : Prop :=
  (∀ s : State, s.cmdReady = true ↔ s.phase = .idle ∧ s.input.rst = false) ∧
  (∀ s : State, s.cmdReady = true → s.input.cmdValid = true →
    ∃ t, step s = .next t ∧ t.latched = s.input.cmd ∧ t.valid = false ∧ t.busy = true) ∧
  (∀ (s : State) (i : Inputs) (rest : List Inputs) (v : Bool) (c : Cmd), s.inputs = i :: rest → s.cmdReady = false →
    step s = step { s with inputs := { i with cmdValid := v, cmd := c } :: rest })

/-- R27: a change on the command port at any edge of a command in progress changes nothing, and the latches keep what
was captured. -/
def Obligations.CapturedOperandsHold : Prop :=
  ∀ (s : State) (i : Inputs) (rest : List Inputs) (v : Bool) (c : Cmd),
    s.inputs = i :: rest → i.rst = false → s.phase ≠ .idle →
    step s = step { s with inputs := { i with cmdValid := v, cmd := c } :: rest } ∧
    ∃ t, step s = .next t ∧ t.latched = s.latched

/-- R144, R136: an edge with `rst = 1` gives the reset state whatever else is due at it, RESULT has no value there, and
no command is ready. -/
def Obligations.ResetWins : Prop :=
  ∀ s : State, s.input.rst = true → s.cmdReady = false ∧
    ∃ t, step s = .next t ∧ t.phase = .idle ∧ t.status = 0x00 ∧ t.done = false ∧ t.redStart = false ∧
      t.redX = none ∧ t.readResult = .fault .resultHasNoValue ∧ t.inputs = s.inputs.tail

/-- R145: reset during a command abandons it without `done`; an answer that comes at the next edge is ignored. -/
def Obligations.ResetWithdrawsRequest : Prop :=
  ∀ (s : State) (x : WideWord) (after : Nat) (i j : Inputs) (rest : List Inputs),
    s.phase = .busy (.asked x after) → s.inputs = i :: j :: rest → i.rst = true → j.rst = false →
    j.cmdValid = false → ∃ t u, step s = .next t ∧ t.done = false ∧ t.status = 0x00 ∧ t.redX = none ∧
      step t = .next u ∧ u = { t with inputs := rest }

/-- R110: `red_done` while no request is outstanding is ignored. -/
def Obligations.StrayAnswerIgnored : Prop :=
  ∀ (s : State) (i : Inputs) (rest : List Inputs) (d : Bool) (r : Option FieldWord),
    s.inputs = i :: rest → s.redX = none →
    step s = step { s with inputs := { i with redDone := d, redR := r } :: rest }

/-- R110, R153: `red_x` is held until the answer, and `red_start` is up for one cycle only. -/
def Obligations.RequestIsHeld : Prop :=
  (∀ (s : State) (x : WideWord), s.redX = some x → s.input.rst = false → s.input.redDone = false →
    ∃ t, step s = .next t ∧ t.redX = some x ∧ t.redStart = false) ∧
  (∀ s t : State, step s = .next t → t.redStart = true → s.redX = none ∧ ∃ x, t.redX = some x)

/-- R39, R36: `done` is 1 after an edge exactly if a command completed at it, so for one cycle. -/
def Obligations.DoneMarksCompletion : Prop :=
  ∀ s t : State, step s = .next t →
    (t.done = true ↔ s.busy = true ∧ t.busy = false ∧ s.input.rst = false)

/-- R48: an edge in IDLE with no command and no reset changes nothing but the pulses. -/
def Obligations.IdleEdgeHolds : Prop :=
  ∀ s : State, s.phase = .idle → s.input.rst = false → s.input.cmdValid = false →
    step s = .next { s with done := false, redStart := false, inputs := s.inputs.tail }

/-- R88, R109: every request is below `P^2`, at most `(P-1)^2`. -/
def Obligations.RequestsAreBelowSquare : Prop :=
  ∀ s t : State, step s = .next t → t.redStart = true →
    ∃ x, t.redX = some x ∧ x.toNat ≤ (Config.P - 1) ^ 2 ∧ x.toNat < Config.P ^ 2

/-- R144, R41: the values the spec gives for reset, and RESULT without one. -/
def Obligations.ResetState : Prop :=
  State.reset.phase = .idle ∧ State.reset.status = 0x00 ∧ State.reset.redX = none ∧
  State.reset.redStart = false ∧ State.reset.done = false ∧ State.reset.readResult = .fault .resultHasNoValue

/-! ## Whole runs: the invariant, the latency, and the atomic view -/

/-- The invariant holds at reset. -/
def Obligations.InvariantAtReset : Prop := State.reset.Inv

/-- Every clock edge keeps the invariant. -/
def Obligations.StepKeepsInvariant : Prop :=
  ∀ s t : State, s.Inv → step s = .next t → t.Inv

/-- R150: a command that never waits for the reducer, or an illegal byte, completes exactly its latency after its
acceptance, for every operand and every outcome, whatever the ports carry meanwhile short of a reset. -/
def Obligations.LatencyIsConstant : Prop :=
  ∀ (s : State) (i : Inputs) (during rest : List Inputs),
    s.phase = .idle → s.inputs = i :: (during ++ rest) → i.rst = false → i.cmdValid = true →
    reducerFree i.cmd.op → during.length = Config.latency (decodeOp i.cmd.op).toOption →
    (∀ j ∈ during, j.rst = false) →
    (∀ k, k < during.length →
      ∃ t : State, Host.Core.run core (1 + k) s = .next t ∧ t.busy = true ∧ t.done = false) ∧
    ∃ t : State, Host.Core.run core (1 + during.length) s = .next t ∧ t.busy = false ∧ t.done = true

/-- R39, R51, R61, R133, R155: from IDLE, presenting such a byte and letting its latency pass leaves, for a command,
what its rule, run at once, says (STATUS, the latches, and RESULT wherever it has a value), and for an illegal byte
CODE ILLEGAL with FAULT set. -/
def Obligations.HandshakeRunsCommand : Prop :=
  ∀ (s : State) (i : Inputs) (during rest : List Inputs),
    s.phase = .idle → s.inputs = i :: (during ++ rest) → i.rst = false → i.cmdValid = true →
    reducerFree i.cmd.op → during.length = Config.latency (decodeOp i.cmd.op).toOption →
    (∀ j ∈ during, j.rst = false) →
    ∃ t : State, Host.Core.run core (1 + during.length) s = .next t ∧
      t.latched = i.cmd ∧ t.phase = .idle ∧ t.done = true ∧ t.inputs = rest ∧
      (∀ c : Instr, decode i.cmd = .ok c → ∃ u : State, exec c s = .next u ∧
        t.status = u.status ∧ (u.valid = true → t.result = u.result)) ∧
      ((∃ err, decode i.cmd = .error err) →
        t.code = .illegal ∧ t.fault = true ∧ t.valid = false ∧ t.status = 0x16)

/-- R110, R150 and the trace of 95_test_vectors.md section 6: an FMUL or FSQR with valid operands sends its request,
waits for the answer, and completes its own latency plus the reducer's `k >= 1` cycles after its acceptance, with the
answer sampled at `red_done` as its result. That the request cycle is one number per command, at most the latency, is
the model's (DEDUCED, assumption 8), and so is the exact sum of the core's and the reducer's cycles (DEDUCED,
assumption 11); the statement holds for each such number. -/
def Obligations.ReducerLatencyIsAdded : Prop :=
  ∀ (s : State) (i ans : Inputs) (before waiting later rest : List Inputs) (c : Instr) (x : WideWord),
    s.phase = .idle → s.inputs = i :: (before ++ (waiting ++ ans :: (later ++ rest))) →
    i.rst = false → i.cmdValid = true → decode i.cmd = .ok c → requestOf Config.modulus c = some x →
    before.length = Config.requestCycle c.opcode →
    before.length + later.length = Config.latency (some c.opcode) →
    (∀ j ∈ before, j.rst = false) → (∀ j ∈ waiting, j.rst = false ∧ j.redDone = false) →
    ans.rst = false → ans.redDone = true → (∀ j ∈ later, j.rst = false) →
    (∃ t : State, Host.Core.run core (1 + before.length) s = .next t ∧ t.redStart = true ∧ t.redX = some x) ∧
    ∃ t : State,
      Host.Core.run core (1 + Config.latency (some c.opcode) + (waiting.length + 1)) s = .next t ∧
        t.phase = .idle ∧ t.done = true ∧ t.valid = true ∧ t.code = .ok ∧ t.fault = s.fault ∧
        t.result = (ans.answer x).setWidth 512 ∧ t.inputs = rest

/-- R111, R150: an FMUL or FSQR that breaks its precondition sends no request at any edge and completes with CONTRACT
after its own latency alone. -/
def Obligations.ViolatingProductSendsNoRequest : Prop :=
  ∀ (s : State) (i : Inputs) (during rest : List Inputs) (c : Instr),
    s.phase = .idle → s.inputs = i :: (during ++ rest) → i.rst = false → i.cmdValid = true →
    decode i.cmd = .ok c → c.opcode = .fmul ∨ c.opcode = .fsqr → violatesPrecondition Config.modulus c →
    during.length = Config.latency (some c.opcode) → (∀ j ∈ during, j.rst = false) →
    (∀ k, k < during.length →
      ∃ t : State, Host.Core.run core (1 + k) s = .next t ∧ t.busy = true ∧ t.redX = none ∧ t.redStart = false) ∧
    ∃ t : State, Host.Core.run core (1 + during.length) s = .next t ∧
      t.phase = .idle ∧ t.done = true ∧ t.code = .contract ∧ t.fault = true ∧ t.redStart = false

/-- R150, R95: two runs that differ only in operand values, results and answers stay in step: what decides when a
command completes is the same in both after every edge. -/
def Obligations.TimingIsDataIndependent : Prop :=
  ∀ s s' t t' : State, sameTiming s s' → step s = .next t → step s' = .next t' →
    sameTiming t t' ∧ t.done = t'.done ∧ t.busy = t'.busy

/-! ## The assembler (30_encoding.md R64 to R66) -/

/-- R64, R65, R66: every line with literals in range, and VALID = 1 where it names `RES`, assembles to the word of its
row. A line that names `RES` with VALID = 0, or with a literal that does not fit its field, is refused; which of the two
reasons is given where both hold is open. -/
def Obligations.ResAndLiterals : Prop :=
  ∀ (p : Modulus) (s : State) (l : AsmLine),
    (l.wellFormed = true → (.res ∈ l.operands → s.valid = true) → assemble p s l = .next (l.word p s)) ∧
    (l.wellFormed = true → .res ∈ l.operands → s.valid = false → assemble p s l = .refused .resWithoutValue) ∧
    (l.wellFormed = false → assemble p s l = .refused .literalOutOfRange ∨
      (.res ∈ l.operands ∧ s.valid = false ∧ assemble p s l = .refused .resWithoutValue))

/-- R66: what each pseudo-instruction, assembled and run, leaves for valid operands. -/
def Obligations.PseudoInstructions : Prop :=
  ∀ (s : State) (a : FieldWord),
    (a.toNat < Config.P →
      (∃ c i t, assemble Config.modulus s (.fneg (.lit a.toNat)) = .next c ∧ decode c = .ok i ∧ exec i s = .next t ∧
        t.valid = true ∧ t.result.toNat = (Config.P - a.toNat) % Config.P) ∧
      (∃ c i t, assemble Config.modulus s (.fdbl (.lit a.toNat)) = .next c ∧ decode c = .ok i ∧ exec i s = .next t ∧
        t.valid = true ∧ t.result.toNat = 2 * a.toNat % Config.P)) ∧
    (∃ c i t, assemble Config.modulus s .fzero = .next c ∧ decode c = .ok i ∧ exec i s = .next t ∧
      t.valid = true ∧ t.result = 0) ∧
    (∃ c i t, assemble Config.modulus s .fone = .next c ∧ decode c = .ok i ∧ exec i s = .next t ∧
      t.valid = true ∧ t.result = 1) ∧
    (∃ c i t, assemble Config.modulus s (.wsqr (.lit a.toNat)) = .next c ∧ decode c = .ok i ∧ exec i s = .next t ∧
      t.valid = true ∧ t.result.toNat = a.toNat * a.toNat)
end

