-- ==== Sys2Proof/Laws/Decode.lean ====
section
/-!
SUPPORT. The CMD word and its fields are two views of one thing, and the command bytes of R57 decode to their
commands and no others do.
-/

namespace Sys2Proof

theorem ofBits_toBits (c : Cmd) : Cmd.ofBits c.toBits = c := by
  obtain ⟨op, a, b, e⟩ := c
  simp only [Cmd.ofBits, Cmd.toBits, Cmd.mk.injEq]
  refine ⟨?_, ?_, ?_, ?_⟩ <;> apply BitVec.eq_of_getLsbD_eq <;> intro i hi <;>
    simp only [BitVec.getLsbD_extractLsb', BitVec.getLsbD_append, hi, decide_true, Bool.true_and]
  · simp [hi]
  · simp; omega
  · rw [if_neg (by omega), if_neg (by omega), if_pos (by omega), show 264 + i - 8 - 256 = i by omega]
  · rw [if_neg (by omega), if_neg (by omega), if_neg (by omega), show 520 + i - 8 - 256 - 256 = i by omega]

theorem toBits_ofBits (w : CmdWord) : (Cmd.ofBits w).toBits = w := by
  simp only [Cmd.ofBits, Cmd.toBits]
  apply BitVec.eq_of_getLsbD_eq
  intro i hi
  simp only [BitVec.getLsbD_extractLsb', BitVec.getLsbD_append]
  split
  · simp_all
  · split
    · rw [decide_eq_true (by omega)]; simp; congr 1; omega
    · split
      · rw [decide_eq_true (by omega), show 264 + (i - 8 - 256) = i by omega, Bool.true_and]
      · rw [decide_eq_true (by omega), show 520 + (i - 8 - 256 - 256) = i by omega, Bool.true_and]

theorem ofNat_toNat (w : CmdWord) : Cmd.ofNat w.toNat = Cmd.ofBits w := rfl

theorem decodeOp_byte (k : Opcode) : decodeOp k.byte = .ok k := by cases k <;> rfl

theorem decodeOp_eq_ok {op : OpByte} {k : Opcode} (h : decodeOp op = .ok k) : op = k.byte := by
  have all : ∀ op : BitVec 8, ∀ k ∈ (decodeOp op).toOption, op = k.byte := by decide
  exact all op k (by simp [h, Except.toOption])

/-- A word decodes exactly when its command byte does, to the command with the operands it reads. -/
theorem decode_eq_ok {c : Cmd} {i : Instr} (h : decode c = .ok i) :
    ∃ k, decodeOp c.op = .ok k ∧ i = k.withOperands c ∧ i.opcode = k := by
  unfold decode at h
  cases hk : decodeOp c.op with
  | error e => rw [hk] at h; cases h
  | ok k =>
    rw [hk] at h
    injection h with h
    exact ⟨k, rfl, h.symm, by rw [← h]; cases k <;> rfl⟩

theorem decode_eq_error {c : Cmd} {e : DecodeError} (h : decodeOp c.op = .error e) : decode c = .error e := by
  unfold decode
  rw [h]
  rfl

end Sys2Proof
end

