-- ==== Sys2Proof/Laws/State.lean ====
section
/-!
SUPPORT. What each update of the state leaves in each field, so that no later proof unfolds a record update.
-/

namespace Sys2Proof.Machine

@[simp] theorem State.complete_result (r : WideWord) (s : State) : (s.complete r).result = r := rfl
@[simp] theorem State.complete_valid (r : WideWord) (s : State) : (s.complete r).valid = true := rfl
@[simp] theorem State.complete_code (r : WideWord) (s : State) : (s.complete r).code = .ok := rfl
@[simp] theorem State.complete_fault (r : WideWord) (s : State) : (s.complete r).fault = s.fault := rfl
@[simp] theorem State.complete_phase (r : WideWord) (s : State) : (s.complete r).phase = .idle := rfl
@[simp] theorem State.complete_op (r : WideWord) (s : State) : (s.complete r).op = s.op := rfl
@[simp] theorem State.complete_a (r : WideWord) (s : State) : (s.complete r).a = s.a := rfl
@[simp] theorem State.complete_b (r : WideWord) (s : State) : (s.complete r).b = s.b := rfl
@[simp] theorem State.complete_e (r : WideWord) (s : State) : (s.complete r).e = s.e := rfl
@[simp] theorem State.complete_done (r : WideWord) (s : State) : (s.complete r).done = true := rfl
@[simp] theorem State.complete_redStart (r : WideWord) (s : State) : (s.complete r).redStart = s.redStart := rfl
@[simp] theorem State.complete_draws (r : WideWord) (s : State) : (s.complete r).draws = s.draws := rfl
@[simp] theorem State.complete_inputs (r : WideWord) (s : State) : (s.complete r).inputs = s.inputs := rfl

@[simp] theorem State.raise_result (code : Code) (setsFault : Bool) (s : State) : (s.raise code setsFault).result = Config.anyResult s.draws := rfl
@[simp] theorem State.raise_valid (code : Code) (setsFault : Bool) (s : State) : (s.raise code setsFault).valid = false := rfl
@[simp] theorem State.raise_code (code : Code) (setsFault : Bool) (s : State) : (s.raise code setsFault).code = code := rfl
@[simp] theorem State.raise_fault (code : Code) (setsFault : Bool) (s : State) : (s.raise code setsFault).fault = (s.fault || setsFault) := rfl
@[simp] theorem State.raise_phase (code : Code) (setsFault : Bool) (s : State) : (s.raise code setsFault).phase = .idle := rfl
@[simp] theorem State.raise_op (code : Code) (setsFault : Bool) (s : State) : (s.raise code setsFault).op = s.op := rfl
@[simp] theorem State.raise_a (code : Code) (setsFault : Bool) (s : State) : (s.raise code setsFault).a = s.a := rfl
@[simp] theorem State.raise_b (code : Code) (setsFault : Bool) (s : State) : (s.raise code setsFault).b = s.b := rfl
@[simp] theorem State.raise_e (code : Code) (setsFault : Bool) (s : State) : (s.raise code setsFault).e = s.e := rfl
@[simp] theorem State.raise_done (code : Code) (setsFault : Bool) (s : State) : (s.raise code setsFault).done = true := rfl
@[simp] theorem State.raise_redStart (code : Code) (setsFault : Bool) (s : State) : (s.raise code setsFault).redStart = s.redStart := rfl
@[simp] theorem State.raise_draws (code : Code) (setsFault : Bool) (s : State) : (s.raise code setsFault).draws = s.draws + 1 := rfl
@[simp] theorem State.raise_inputs (code : Code) (setsFault : Bool) (s : State) : (s.raise code setsFault).inputs = s.inputs := rfl

@[simp] theorem State.advance_result (s : State) : s.advance.result = s.result := rfl
@[simp] theorem State.advance_valid (s : State) : s.advance.valid = s.valid := rfl
@[simp] theorem State.advance_code (s : State) : s.advance.code = s.code := rfl
@[simp] theorem State.advance_fault (s : State) : s.advance.fault = s.fault := rfl
@[simp] theorem State.advance_phase (s : State) : s.advance.phase = s.phase := rfl
@[simp] theorem State.advance_op (s : State) : s.advance.op = s.op := rfl
@[simp] theorem State.advance_a (s : State) : s.advance.a = s.a := rfl
@[simp] theorem State.advance_b (s : State) : s.advance.b = s.b := rfl
@[simp] theorem State.advance_e (s : State) : s.advance.e = s.e := rfl
@[simp] theorem State.advance_done (s : State) : s.advance.done = false := rfl
@[simp] theorem State.advance_redStart (s : State) : s.advance.redStart = false := rfl
@[simp] theorem State.advance_draws (s : State) : s.advance.draws = s.draws := rfl
@[simp] theorem State.advance_inputs (s : State) : s.advance.inputs = s.inputs.tail := rfl

@[simp] theorem State.resetEdge_result (s : State) : s.resetEdge.result = 0 := rfl
@[simp] theorem State.resetEdge_valid (s : State) : s.resetEdge.valid = false := rfl
@[simp] theorem State.resetEdge_code (s : State) : s.resetEdge.code = .ok := rfl
@[simp] theorem State.resetEdge_fault (s : State) : s.resetEdge.fault = false := rfl
@[simp] theorem State.resetEdge_phase (s : State) : s.resetEdge.phase = .idle := rfl
@[simp] theorem State.resetEdge_op (s : State) : s.resetEdge.op = 0 := rfl
@[simp] theorem State.resetEdge_a (s : State) : s.resetEdge.a = 0 := rfl
@[simp] theorem State.resetEdge_b (s : State) : s.resetEdge.b = 0 := rfl
@[simp] theorem State.resetEdge_e (s : State) : s.resetEdge.e = 0 := rfl
@[simp] theorem State.resetEdge_done (s : State) : s.resetEdge.done = false := rfl
@[simp] theorem State.resetEdge_redStart (s : State) : s.resetEdge.redStart = false := rfl
@[simp] theorem State.resetEdge_draws (s : State) : s.resetEdge.draws = s.draws := rfl
@[simp] theorem State.resetEdge_inputs (s : State) : s.resetEdge.inputs = s.inputs := rfl

@[simp] theorem State.stayBusy_result (w : Work) (s : State) : (s.stayBusy w).result = Config.anyResult s.draws := rfl
@[simp] theorem State.stayBusy_valid (w : Work) (s : State) : (s.stayBusy w).valid = s.valid := rfl
@[simp] theorem State.stayBusy_fault (w : Work) (s : State) : (s.stayBusy w).fault = s.fault := rfl
@[simp] theorem State.stayBusy_phase (w : Work) (s : State) : (s.stayBusy w).phase = .busy w := rfl
@[simp] theorem State.stayBusy_op (w : Work) (s : State) : (s.stayBusy w).op = s.op := rfl
@[simp] theorem State.stayBusy_a (w : Work) (s : State) : (s.stayBusy w).a = s.a := rfl
@[simp] theorem State.stayBusy_b (w : Work) (s : State) : (s.stayBusy w).b = s.b := rfl
@[simp] theorem State.stayBusy_e (w : Work) (s : State) : (s.stayBusy w).e = s.e := rfl
@[simp] theorem State.stayBusy_done (w : Work) (s : State) : (s.stayBusy w).done = s.done := rfl
@[simp] theorem State.stayBusy_redStart (w : Work) (s : State) : (s.stayBusy w).redStart = s.redStart := rfl
@[simp] theorem State.stayBusy_draws (w : Work) (s : State) : (s.stayBusy w).draws = s.draws + 1 := rfl
@[simp] theorem State.stayBusy_inputs (w : Work) (s : State) : (s.stayBusy w).inputs = s.inputs := rfl

@[simp] theorem State.capture_result (c : Cmd) (s : State) : (s.capture c).result = s.result := rfl
@[simp] theorem State.capture_valid (c : Cmd) (s : State) : (s.capture c).valid = s.valid := rfl
@[simp] theorem State.capture_code (c : Cmd) (s : State) : (s.capture c).code = s.code := rfl
@[simp] theorem State.capture_fault (c : Cmd) (s : State) : (s.capture c).fault = s.fault := rfl
@[simp] theorem State.capture_phase (c : Cmd) (s : State) : (s.capture c).phase = s.phase := rfl
@[simp] theorem State.capture_op (c : Cmd) (s : State) : (s.capture c).op = c.op := rfl
@[simp] theorem State.capture_a (c : Cmd) (s : State) : (s.capture c).a = c.a := rfl
@[simp] theorem State.capture_b (c : Cmd) (s : State) : (s.capture c).b = c.b := rfl
@[simp] theorem State.capture_e (c : Cmd) (s : State) : (s.capture c).e = c.e := rfl
@[simp] theorem State.capture_done (c : Cmd) (s : State) : (s.capture c).done = s.done := rfl
@[simp] theorem State.capture_redStart (c : Cmd) (s : State) : (s.capture c).redStart = s.redStart := rfl
@[simp] theorem State.capture_draws (c : Cmd) (s : State) : (s.capture c).draws = s.draws := rfl
@[simp] theorem State.capture_inputs (c : Cmd) (s : State) : (s.capture c).inputs = s.inputs := rfl

@[simp] theorem State.accept_result (c : Cmd) (s : State) : (s.accept c).result = Config.anyResult s.draws := rfl
@[simp] theorem State.accept_valid (c : Cmd) (s : State) : (s.accept c).valid = false := rfl
@[simp] theorem State.accept_fault (c : Cmd) (s : State) : (s.accept c).fault = s.fault := rfl
@[simp] theorem State.accept_phase (c : Cmd) (s : State) : (s.accept c).phase = .busy (Work.start c.op) := rfl
@[simp] theorem State.accept_op (c : Cmd) (s : State) : (s.accept c).op = c.op := rfl
@[simp] theorem State.accept_a (c : Cmd) (s : State) : (s.accept c).a = c.a := rfl
@[simp] theorem State.accept_b (c : Cmd) (s : State) : (s.accept c).b = c.b := rfl
@[simp] theorem State.accept_e (c : Cmd) (s : State) : (s.accept c).e = c.e := rfl
@[simp] theorem State.accept_done (c : Cmd) (s : State) : (s.accept c).done = s.done := rfl
@[simp] theorem State.accept_redStart (c : Cmd) (s : State) : (s.accept c).redStart = s.redStart := rfl
@[simp] theorem State.accept_draws (c : Cmd) (s : State) : (s.accept c).draws = s.draws + 1 := rfl
@[simp] theorem State.accept_inputs (c : Cmd) (s : State) : (s.accept c).inputs = s.inputs := rfl

@[simp] theorem State.issue_result (x : WideWord) (after : Nat) (s : State) : (s.issue x after).result = Config.anyResult s.draws := rfl
@[simp] theorem State.issue_valid (x : WideWord) (after : Nat) (s : State) : (s.issue x after).valid = s.valid := rfl
@[simp] theorem State.issue_fault (x : WideWord) (after : Nat) (s : State) : (s.issue x after).fault = s.fault := rfl
@[simp] theorem State.issue_phase (x : WideWord) (after : Nat) (s : State) : (s.issue x after).phase = .busy (.asked x after) := rfl
@[simp] theorem State.issue_op (x : WideWord) (after : Nat) (s : State) : (s.issue x after).op = s.op := rfl
@[simp] theorem State.issue_a (x : WideWord) (after : Nat) (s : State) : (s.issue x after).a = s.a := rfl
@[simp] theorem State.issue_b (x : WideWord) (after : Nat) (s : State) : (s.issue x after).b = s.b := rfl
@[simp] theorem State.issue_e (x : WideWord) (after : Nat) (s : State) : (s.issue x after).e = s.e := rfl
@[simp] theorem State.issue_done (x : WideWord) (after : Nat) (s : State) : (s.issue x after).done = s.done := rfl
@[simp] theorem State.issue_redStart (x : WideWord) (after : Nat) (s : State) : (s.issue x after).redStart = true := rfl
@[simp] theorem State.issue_draws (x : WideWord) (after : Nat) (s : State) : (s.issue x after).draws = s.draws + 1 := rfl
@[simp] theorem State.issue_inputs (x : WideWord) (after : Nat) (s : State) : (s.issue x after).inputs = s.inputs := rfl

@[simp] theorem State.withCommandDue_result (c : Cmd) (s : State) : (s.withCommandDue c).result = s.result := rfl
@[simp] theorem State.withCommandDue_valid (c : Cmd) (s : State) : (s.withCommandDue c).valid = false := rfl
@[simp] theorem State.withCommandDue_code (c : Cmd) (s : State) : (s.withCommandDue c).code = s.code := rfl
@[simp] theorem State.withCommandDue_fault (c : Cmd) (s : State) : (s.withCommandDue c).fault = s.fault := rfl
@[simp] theorem State.withCommandDue_phase (c : Cmd) (s : State) : (s.withCommandDue c).phase = .busy (.running 1) := rfl
@[simp] theorem State.withCommandDue_op (c : Cmd) (s : State) : (s.withCommandDue c).op = c.op := rfl
@[simp] theorem State.withCommandDue_a (c : Cmd) (s : State) : (s.withCommandDue c).a = c.a := rfl
@[simp] theorem State.withCommandDue_b (c : Cmd) (s : State) : (s.withCommandDue c).b = c.b := rfl
@[simp] theorem State.withCommandDue_e (c : Cmd) (s : State) : (s.withCommandDue c).e = c.e := rfl
@[simp] theorem State.withCommandDue_done (c : Cmd) (s : State) : (s.withCommandDue c).done = s.done := rfl
@[simp] theorem State.withCommandDue_redStart (c : Cmd) (s : State) : (s.withCommandDue c).redStart = s.redStart := rfl
@[simp] theorem State.withCommandDue_draws (c : Cmd) (s : State) : (s.withCommandDue c).draws = s.draws := rfl
@[simp] theorem State.withCommandDue_inputs (c : Cmd) (s : State) : (s.withCommandDue c).inputs = Inputs.idle :: s.inputs := rfl

end Sys2Proof.Machine
end

