-- ==== Sys2Proof/Laws/Limbs.lean ====
section
/-!
SUPPORT. One lemma for each datapath function, saying in numbers all that it computes (40_limb_primitives.md,
41_wide_multiply.md, 42_conditional_reduce.md, 43_field_add_sub.md).
-/

namespace Sys2Proof.Machine

/-! Limb vectors and their values. -/

theorem lt_wider {x m n : Nat} (h : x < 2 ^ m) (le : m ≤ n) : x < 2 ^ n :=
  Nat.lt_of_lt_of_le h (Nat.pow_le_pow_right Nat.two_pos le)

@[simp] theorem val_nil : val [] = 0 := rfl

@[simp] theorem val_cons (l : Limb) (ls : List Limb) : val (l :: ls) = l.toNat + 2 ^ 64 * val ls := rfl

@[simp] theorem length_limbs (n x : Nat) : (limbs n x).length = n := by
  induction n generalizing x with
  | zero => rfl
  | succ n ih => simp [limbs, ih]

theorem val_limbs (n x : Nat) : val (limbs n x) = x % 2 ^ (64 * n) := by
  induction n generalizing x with
  | zero => simp [limbs, Nat.mod_one]
  | succ n ih =>
    rw [limbs, val_cons, ih, BitVec.toNat_ofNat, show 64 * (n + 1) = 64 + 64 * n by ring, Nat.pow_add,
      Nat.mod_mul]

theorem val_lt (ls : List Limb) : val ls < 2 ^ (64 * ls.length) := by
  induction ls with
  | nil => simp
  | cons l ls ih =>
    have := l.isLt
    rw [val_cons, List.length_cons, show 64 * (ls.length + 1) = 64 + 64 * ls.length by ring, Nat.pow_add]
    nlinarith

theorem val_append (xs ys : List Limb) : val (xs ++ ys) = val xs + 2 ^ (64 * xs.length) * val ys := by
  induction xs with
  | nil => simp
  | cons x xs ih =>
    rw [List.cons_append, val_cons, ih, val_cons, List.length_cons,
      show 64 * (xs.length + 1) = 64 + 64 * xs.length by ring, Nat.pow_add]
    ring

@[simp] theorem length_fieldLimbs (x : FieldWord) : (fieldLimbs x).length = 4 := length_limbs 4 _

@[simp] theorem length_credLimbs (a : FieldWord) (e : Limb) : (credLimbs a e).length = 5 := by simp [credLimbs]

@[simp] theorem length_modulusLimbs4 (p : Modulus) : (modulusLimbs4 p).length = 4 := length_limbs 4 _

@[simp] theorem length_modulusLimbs5 (p : Modulus) : (modulusLimbs5 p).length = 5 := length_limbs 5 _

@[simp] theorem val_fieldLimbs (x : FieldWord) : val (fieldLimbs x) = x.toNat := by
  rw [fieldLimbs, val_limbs]
  exact Nat.mod_eq_of_lt x.isLt

@[simp] theorem val_credLimbs (a : FieldWord) (e : Limb) :
    val (credLimbs a e) = a.toNat + 2 ^ 256 * e.toNat := by
  simp [credLimbs, val_append]

@[simp] theorem val_modulusLimbs4 (p : Modulus) : val (modulusLimbs4 p) = p.val := by
  rw [modulusLimbs4, val_limbs]
  exact Nat.mod_eq_of_lt p.lt

@[simp] theorem val_modulusLimbs5 (p : Modulus) : val (modulusLimbs5 p) = p.val := by
  rw [modulusLimbs5, val_limbs]
  exact Nat.mod_eq_of_lt (lt_wider p.lt (by decide))

theorem val_take (n : Nat) (ls : List Limb) : val (ls.take n) = val ls % 2 ^ (64 * n) := by
  induction n generalizing ls with
  | zero => simp [Nat.mod_one]
  | succ n ih =>
    cases ls with
    | nil => simp
    | cons l ls =>
      have := l.isLt
      rw [List.take_succ_cons, val_cons, ih, val_cons, show 64 * (n + 1) = 64 + 64 * n by ring, Nat.pow_add,
        Nat.mod_mul, Nat.add_mul_mod_self_left, Nat.mod_eq_of_lt this, Nat.add_mul_div_left _ _ (by norm_num),
        Nat.div_eq_of_lt this, zero_add]

@[simp] theorem toNat_toWide_fieldLimbs (x : FieldWord) : (toWide (fieldLimbs x)).toNat = x.toNat := by
  have fits : x.toNat < 2 ^ 512 := lt_wider x.isLt (by decide)
  rw [toWide, val_fieldLimbs, BitVec.toNat_ofNat, Nat.mod_eq_of_lt fits]

/-! Carry and borrow chains (R73, R74). -/

theorem addStep_spec (x y : Limb) (c : Bool) :
    (addStep x y c).1.toNat + (addStep x y c).2.toNat * 2 ^ 64 = x.toNat + y.toNat + c.toNat := by
  have hx := x.isLt
  have hy := y.isLt
  have hc := Bool.toNat_le c
  simp only [addStep, BitVec.toNat_ofNat]
  by_cases h : (x.toNat + y.toNat + c.toNat) / 2 ^ 64 = 1 <;> simp only [h, decide_true, decide_false,
    Bool.toNat_true, Bool.toNat_false] <;> omega

theorem subStep_spec (x y : Limb) (bo : Bool) :
    (x.toNat : Int) - y.toNat - bo.toNat = (subStep x y bo).1.toNat - (subStep x y bo).2.toNat * 2 ^ 64 := by
  have hx := x.isLt
  have hy := y.isLt
  have hc := Bool.toNat_le bo
  simp only [subStep, BitVec.toNat_ofInt]
  by_cases h : (x.toNat : Int) - y.toNat - bo.toNat < 0 <;> simp only [h, decide_true, decide_false,
    Bool.toNat_true, Bool.toNat_false] <;> omega

theorem addLimbsFrom_spec (xs ys : List Limb) (c : Bool) (h : xs.length = ys.length) :
    (addLimbsFrom xs ys c).1.length = xs.length ∧
    val (addLimbsFrom xs ys c).1 + (addLimbsFrom xs ys c).2.toNat * 2 ^ (64 * xs.length) =
      val xs + val ys + c.toNat := by
  induction xs generalizing ys c with
  | nil => cases ys <;> simp_all [addLimbsFrom]
  | cons x xs ih =>
    cases ys with
    | nil => simp at h
    | cons y ys =>
      have step := addStep_spec x y c
      have rest := ih ys (addStep x y c).2 (by simpa using h)
      simp only [addLimbsFrom, val_cons, List.length_cons, rest.1, true_and]
      rw [show 64 * (xs.length + 1) = 64 + 64 * xs.length by ring, Nat.pow_add]
      have := rest.2
      nlinarith

theorem subLimbsFrom_spec (xs ys : List Limb) (bo : Bool) (h : xs.length = ys.length) :
    (subLimbsFrom xs ys bo).1.length = xs.length ∧
    (val xs : Int) - val ys - bo.toNat =
      val (subLimbsFrom xs ys bo).1 - (subLimbsFrom xs ys bo).2.toNat * 2 ^ (64 * xs.length) := by
  induction xs generalizing ys bo with
  | nil => cases ys <;> simp_all [subLimbsFrom]
  | cons x xs ih =>
    cases ys with
    | nil => simp at h
    | cons y ys =>
      have step := subStep_spec x y bo
      have rest := ih ys (subStep x y bo).2 (by simpa using h)
      simp only [subLimbsFrom, val_cons, List.length_cons, rest.1, true_and]
      rw [show 64 * (xs.length + 1) = 64 + 64 * xs.length by ring, pow_add]
      have := rest.2
      push_cast
      linear_combination step + 2 ^ 64 * this

/-! The mask select (R79). -/

theorem selectMask_select (f : Bool) (x y : Limb) :
    (selectMask f &&& x) ||| (~~~selectMask f &&& y) = if f then x else y := by
  cases f
  · change (0#64 &&& x) ||| (BitVec.allOnes 64 &&& y) = y
    rw [BitVec.zero_and, BitVec.allOnes_and, BitVec.zero_or]
  · have mask : selectMask true = BitVec.allOnes 64 := by decide
    have flipped : ~~~selectMask true = 0#64 := by decide
    rw [flipped, mask, BitVec.zero_and, BitVec.allOnes_and, BitVec.or_zero]
    rfl

theorem select_eq (f : Bool) (xs ys : List Limb) (h : xs.length = ys.length) :
    select f xs ys = if f then xs else ys := by
  induction xs generalizing ys with
  | nil => cases ys <;> simp_all [select]
  | cons x xs ih =>
    cases ys with
    | nil => simp at h
    | cons y ys =>
      have rest := ih ys (by simpa using h)
      rw [select] at rest ⊢
      rw [List.zipWith_cons_cons, rest, selectMask_select]
      cases f <;> rfl

/-! Multiplication (R78, R82). -/

theorem mul64_spec (x y : Limb) :
    (mul64 x y).1.toNat * 2 ^ 64 + (mul64 x y).2.toNat = x.toNat * y.toNat ∧ (mul64 x y).1.toNat ≤ 2 ^ 64 - 2 := by
  have hx := x.isLt
  have hy := y.isLt
  have bound : x.toNat * y.toNat ≤ (2 ^ 64 - 1) * (2 ^ 64 - 1) := Nat.mul_le_mul (by omega) (by omega)
  simp only [mul64, BitVec.toNat_ofNat]
  omega

/-- One pass drops no carry: the window, the products and the carry are all in what it returns. -/
theorem mulRow_spec (x : Limb) (ys rs : List Limb) (carry : Limb) (h : ys.length = rs.length) :
    (mulRow x ys rs carry).length = ys.length + 1 ∧
    val (mulRow x ys rs carry) = x.toNat * val ys + val rs + carry.toNat := by
  induction ys generalizing rs carry with
  | nil => cases rs <;> simp_all [mulRow]
  | cons y ys ih =>
    cases rs with
    | nil => simp at h
    | cons r rs =>
      have prod := mul64_spec x y
      have hlo := (mul64 x y).2.isLt
      have hr := r.isLt
      have hc := carry.isLt
      have rest := ih rs (BitVec.ofNat 64 ((mul64 x y).1.toNat +
        (r.toNat + (mul64 x y).2.toNat + carry.toNat) / 2 ^ 64)) (by simpa using h)
      have bound : x.toNat * y.toNat ≤ (2 ^ 64 - 1) * (2 ^ 64 - 1) :=
        Nat.mul_le_mul (by have := x.isLt; omega) (by have := y.isLt; omega)
      have kept : (BitVec.ofNat 64 ((mul64 x y).1.toNat +
          (r.toNat + (mul64 x y).2.toNat + carry.toNat) / 2 ^ 64)).toNat =
          (mul64 x y).1.toNat + (r.toNat + (mul64 x y).2.toNat + carry.toNat) / 2 ^ 64 := by
        rw [BitVec.toNat_ofNat]
        apply Nat.mod_eq_of_lt
        omega
      rw [kept] at rest
      simp only [mulRow, val_cons, List.length_cons, rest.1, true_and, rest.2, BitVec.toNat_ofNat]
      have split := Nat.mod_add_div (r.toNat + (mul64 x y).2.toNat + carry.toNat) (2 ^ 64)
      nlinarith [prod.1]

theorem mulPasses_spec (xs ys window : List Limb) (h : window.length = ys.length) :
    (mulPasses xs ys window).length = xs.length + ys.length ∧
    val (mulPasses xs ys window) = val xs * val ys + val window := by
  induction xs generalizing window with
  | nil => simp [mulPasses, h]
  | cons x xs ih =>
    have row := mulRow_spec x ys window 0 h.symm
    rw [mulPasses]
    match hrow : mulRow x ys window 0, row with
    | [], row => simp at row
    | low :: rest, row =>
      have tail := ih rest (by simpa using row.1)
      simp only [val_cons, List.length_cons, tail.1, tail.2] at row ⊢
      refine ⟨by omega, ?_⟩
      have := row.2
      simp at this
      nlinarith

/-- WideMultiply by the reference algorithm is the exact product on twice the limbs (R81, R82). -/
theorem wideMultiply_spec (xs ys : List Limb) :
    (wideMultiply xs ys).length = xs.length + ys.length ∧ val (wideMultiply xs ys) = val xs * val ys := by
  have zeros : val (ys.map fun _ => 0#64) = 0 := by
    induction ys with
    | nil => rfl
    | cons y ys ih => rw [List.map_cons, val_cons, ih]; rfl
  have := mulPasses_spec xs ys (ys.map fun _ => 0#64) (by simp)
  rw [zeros] at this
  simpa [wideMultiply] using this

end Sys2Proof.Machine
end

