-- ==== Sys2Proof/Laws/PerInstr.lean ====
section
/-!
SUPPORT. The family OpByte, a law of every command as syntax: its command byte has RSV = 0 and OPC from 1 to 8 (R56,
R57) and decodes to it (R60), and its word is one the assembler may write, ignored fields zero (R58, R65).
-/

namespace Sys2Proof.Laws.OpByte

def Statement (i : Instr) : Prop :=
  ((encodeCmd i).op.extractLsb' 4 4 = 0#4 ∧ 1 ≤ (encodeCmd i).op.toNat ∧ (encodeCmd i).op.toNat ≤ 8 ∧
    decodeOp (encodeCmd i).op = .ok i.opcode) ∧ (encodeCmd i).wellFormed = true

theorem byte_law (k : Opcode) :
    k.byte.extractLsb' 4 4 = 0#4 ∧ 1 ≤ k.byte.toNat ∧ k.byte.toNat ≤ 8 ∧ decodeOp k.byte = .ok k := by
  cases k <;> decide

theorem wmul (a b : FieldWord) : Statement (.wmul a b) := ⟨byte_law .wmul, rfl⟩

theorem cred (a : FieldWord) (e : Limb) : Statement (.cred a e) := ⟨byte_law .cred, rfl⟩

theorem fadd (a b : FieldWord) : Statement (.fadd a b) := ⟨byte_law .fadd, rfl⟩

theorem fsub (a b : FieldWord) : Statement (.fsub a b) := ⟨byte_law .fsub, rfl⟩

theorem fmul (a b : FieldWord) : Statement (.fmul a b) := ⟨byte_law .fmul, rfl⟩

theorem fsqr (a : FieldWord) : Statement (.fsqr a) := ⟨byte_law .fsqr, rfl⟩

theorem fromInt (n : FieldWord) : Statement (.fromInt n) := ⟨byte_law .fromInt, rfl⟩

theorem fout (a : FieldWord) : Statement (.fout a) := ⟨byte_law .fout, rfl⟩

end Sys2Proof.Laws.OpByte
end

