-- ==== Sys2Proof/Laws/Rules.lean ====
section
/-!
SUPPORT. What the rule of each command comes to, in numbers, for every modulus (R85, R91, R98, R101, R111, R113, R119,
R122), and what the datapaths it shares compute.
-/

namespace Sys2Proof.Machine

/-! The conditional reduction (R92, R96). -/

theorem condReduce5_spec (p : Modulus) (v : List Limb) (hl : v.length = 5) (hv : val v < 2 * p.val) :
    (condReduce5 p v).length = 4 ∧ val (condReduce5 p v) = if val v < p.val then val v else val v - p.val := by
  have sub := subLimbsFrom_spec v (modulusLimbs5 p) false (by simp [hl])
  rcases hs : subLimbsFrom v (modulusLimbs5 p) false with ⟨t, bo⟩
  rw [hs, val_modulusLimbs5, hl] at sub
  obtain ⟨tlen, eq⟩ := sub
  have tl := val_lt t
  have pl := p.lt
  simp only at tlen eq
  rw [tlen] at tl
  simp only [condReduce5, subLimbs, hs]
  rw [select_eq _ _ _ (by simp [tlen, hl])]
  cases bo with
  | false =>
    have ge : ¬ val v < p.val := by simp at eq; omega
    simp only [Bool.false_eq_true, if_false, List.length_take, tlen, val_take, ge]
    simp at eq
    omega
  | true =>
    have lt : val v < p.val := by simp at eq; omega
    simp only [if_true, List.length_take, hl, val_take, lt]
    omega

theorem credRule_ok (p : Modulus) (a : FieldWord) (e : Limb) (h : a.toNat + 2 ^ 256 * e.toNat < 2 * p.val) :
    credRule p a e = .ok (BitVec.ofNat 512 ((a.toNat + 2 ^ 256 * e.toNat) % p.val)) := by
  have cond : val (credLimbs a e) < 2 * p.val := by simpa using h
  have spec := (condReduce5_spec p (credLimbs a e) (by simp) cond).2
  have pos := p.two_le
  rw [credRule, if_pos cond, toWide, spec, val_credLimbs]
  congr 2
  split
  · rw [Nat.mod_eq_of_lt ‹_›]
  · rw [Nat.mod_eq_sub_mod (by omega), Nat.mod_eq_of_lt (by omega)]

theorem credRule_contract (p : Modulus) (a : FieldWord) (e : Limb)
    (h : 2 * p.val ≤ a.toNat + 2 ^ 256 * e.toNat) : credRule p a e = .contract := by
  rw [credRule, if_neg (by simpa using h)]

/-! Multiplication (R81, R85). -/

theorem wmulRule_ok (a b : FieldWord) : wmulRule a b = .ok (BitVec.ofNat 512 (a.toNat * b.toNat)) := by
  rw [wmulRule, toWide, (wideMultiply_spec _ _).2, val_fieldLimbs, val_fieldLimbs]

/-! Addition and subtraction (R98, R99, R101, R102). -/

theorem addReduce_spec (p : Modulus) (a b : FieldWord) (ha : a.toNat < p.val) (hb : b.toNat < p.val) :
    val (addReduce p a b) = (a.toNat + b.toNat) % p.val := by
  have add := addLimbsFrom_spec (fieldLimbs a) (fieldLimbs b) false (by simp)
  rcases hs : addLimbsFrom (fieldLimbs a) (fieldLimbs b) false with ⟨s, c⟩
  rw [hs] at add
  simp only [length_fieldLimbs, val_fieldLimbs] at add
  obtain ⟨slen, eq⟩ := add
  have sum : val (s ++ [BitVec.ofNat 64 c.toNat]) = a.toNat + b.toNat := by
    rw [val_append, slen, val_cons, val_nil]
    cases c <;> simp at eq ⊢ <;> omega
  have spec := (condReduce5_spec p (s ++ [BitVec.ofNat 64 c.toNat]) (by simp [slen]) (by omega)).2
  simp only [addReduce, addLimbs, hs]
  rw [spec, sum]
  split
  · rw [Nat.mod_eq_of_lt ‹_›]
  · rw [Nat.mod_eq_sub_mod (by omega), Nat.mod_eq_of_lt (by omega)]

theorem subCorrect_spec (p : Modulus) (a b : FieldWord) (ha : a.toNat < p.val) (hb : b.toNat < p.val) :
    val (subCorrect p a b) = (a.toNat + p.val - b.toNat) % p.val := by
  have sub := subLimbsFrom_spec (fieldLimbs a) (fieldLimbs b) false (by simp)
  rcases hs : subLimbsFrom (fieldLimbs a) (fieldLimbs b) false with ⟨d, bo⟩
  rw [hs] at sub
  simp only [length_fieldLimbs, val_fieldLimbs] at sub
  obtain ⟨dlen, eq⟩ := sub
  have add := addLimbsFrom_spec d (modulusLimbs4 p) false (by simp [dlen])
  rcases ht : addLimbsFrom d (modulusLimbs4 p) false with ⟨t, c⟩
  rw [ht] at add
  simp only [dlen, val_modulusLimbs4] at add
  obtain ⟨tlen, eq'⟩ := add
  have dl := val_lt d
  have tl := val_lt t
  rw [dlen] at dl
  rw [tlen] at tl
  simp only [subCorrect, subLimbs, addLimbs, hs, ht]
  rw [select_eq _ _ _ (by rw [tlen, dlen])]
  have pl := p.lt
  cases bo with
  | false =>
    simp at eq
    simp only [Bool.false_eq_true, if_false]
    rw [Nat.mod_eq_sub_mod (by omega), Nat.mod_eq_of_lt (by omega)]
    omega
  | true =>
    simp at eq
    simp only [if_true]
    rw [Nat.mod_eq_of_lt (by omega)]
    cases c <;> simp at eq' <;> omega

theorem canonical_iff (p : Modulus) (x : FieldWord) : canonical p x = true ↔ x.toNat < p.val := by
  simp [canonical]

theorem canonical_and (p : Modulus) (a b : FieldWord) :
    (canonical p a && canonical p b) = true ↔ a.toNat < p.val ∧ b.toNat < p.val := by
  simp [canonical]

theorem faddRule_ok (p : Modulus) (a b : FieldWord) (ha : a.toNat < p.val) (hb : b.toNat < p.val) :
    faddRule p a b = .ok (BitVec.ofNat 512 ((a.toNat + b.toNat) % p.val)) := by
  rw [faddRule, if_pos ((canonical_and p a b).2 ⟨ha, hb⟩), toWide, addReduce_spec p a b ha hb]

theorem faddRule_contract (p : Modulus) (a b : FieldWord) (h : p.val ≤ a.toNat ∨ p.val ≤ b.toNat) :
    faddRule p a b = .contract := by
  rw [faddRule, if_neg (by rw [canonical_and]; omega)]

theorem fsubRule_ok (p : Modulus) (a b : FieldWord) (ha : a.toNat < p.val) (hb : b.toNat < p.val) :
    fsubRule p a b = .ok (BitVec.ofNat 512 ((a.toNat + p.val - b.toNat) % p.val)) := by
  rw [fsubRule, if_pos ((canonical_and p a b).2 ⟨ha, hb⟩), toWide, subCorrect_spec p a b ha hb]

theorem fsubRule_contract (p : Modulus) (a b : FieldWord) (h : p.val ≤ a.toNat ∨ p.val ≤ b.toNat) :
    fsubRule p a b = .contract := by
  rw [fsubRule, if_neg (by rw [canonical_and]; omega)]

/-! The reducer's commands (R111, R113). -/

theorem fmulRequest_eq (p : Modulus) (a b : FieldWord) :
    fmulRequest p a b =
      if a.toNat < p.val ∧ b.toNat < p.val then some (BitVec.ofNat 512 (a.toNat * b.toNat)) else none := by
  rw [fmulRequest, toWide, (wideMultiply_spec _ _).2, val_fieldLimbs, val_fieldLimbs]
  exact if_congr (canonical_and p a b) rfl rfl

theorem fsqrRequest_eq (p : Modulus) (a : FieldWord) :
    fsqrRequest p a = if a.toNat < p.val then some (BitVec.ofNat 512 (a.toNat * a.toNat)) else none := by
  rw [fsqrRequest, toWide, (wideMultiply_spec _ _).2, val_fieldLimbs]
  exact if_congr (canonical_iff p a) rfl rfl

/-! The conversions (R119, R122). -/

theorem toWide_fieldLimbs (x : FieldWord) : toWide (fieldLimbs x) = BitVec.ofNat 512 x.toNat := by
  rw [toWide, val_fieldLimbs]

theorem fromRule_eq (p : Modulus) (n : FieldWord) :
    fromRule p n = if n.toNat < p.val then .ok (BitVec.ofNat 512 n.toNat) else .outOfRange := by
  rw [fromRule, toWide_fieldLimbs]
  by_cases h : n.toNat < p.val <;> simp [h]

theorem foutRule_eq (p : Modulus) (a : FieldWord) :
    foutRule p a = if a.toNat < p.val then .ok (BitVec.ofNat 512 a.toNat) else .contract := by
  rw [foutRule, toWide_fieldLimbs]
  exact if_congr (canonical_iff p a) rfl rfl

end Sys2Proof.Machine
end

