-- ==== Sys2Proof/Laws/Step.lean ====
section
/-!
SUPPORT. What a completion and a clock edge can do, said once: every later proof about `step` starts from `step_cases`.
-/

namespace Sys2Proof.Machine

/-- `t` is `s` after a completion, one of the four primitives of R129 and R131 to R133. -/
def State.EndsAs (s t : State) : Prop :=
  (∃ r, t = s.complete r) ∨ t = s.raiseContract ∨ t = s.raiseOutOfRange ∨ t = s.raiseIllegal

theorem finish_endsAs (c : Completion) (s : State) : s.EndsAs (s.finish c) := by
  cases c with
  | ok r => exact .inl ⟨r, rfl⟩
  | contract => exact .inr (.inl rfl)
  | outOfRange => exact .inr (.inr (.inl rfl))

/-- The rule whose completion the meaning of a command takes. -/
def ruleOf (i : Instr) (s : State) : Completion :=
  match i with
  | .wmul a b => wmulRule a b
  | .cred a e => credRule Config.modulus a e
  | .fadd a b => faddRule Config.modulus a b
  | .fsub a b => fsubRule Config.modulus a b
  | .fmul a b => reduceRule (fmulRequest Config.modulus a b) s.reduce
  | .fsqr a => reduceRule (fsqrRequest Config.modulus a) s.reduce
  | .fromInt n => fromRule Config.modulus n
  | .fout a => foutRule Config.modulus a

theorem exec_eq_finish (i : Instr) (s : State) : exec i s = .next (s.finish (ruleOf i s)) := by
  cases i <;> rfl

theorem runLatched_ok {s : State} {i : Instr} (h : decode s.latched = .ok i) : s.runLatched = exec i s := by
  simp only [State.runLatched, h]

theorem runLatched_error {s : State} {e : DecodeError} (h : decode s.latched = .error e) :
    s.runLatched = .next s.raiseIllegal := by
  simp only [State.runLatched, h]

/-- A completion edge always answers, with one of the four completions. -/
theorem runLatched_endsAs (s : State) : ∃ t, s.runLatched = .next t ∧ s.EndsAs t := by
  cases h : decode s.latched with
  | ok i => exact ⟨_, (runLatched_ok h).trans (exec_eq_finish i s), finish_endsAs _ s⟩
  | error e => exact ⟨_, runLatched_error h, .inr (.inr (.inr rfl))⟩

/-! The three kinds of edge. -/

theorem step_reset {s : State} (h : s.input.rst = true) : step s = .next s.advance.resetEdge := by
  simp only [step, State.edge, h, if_true]

theorem step_idle {s : State} (h : s.input.rst = false) (hp : s.phase = .idle) :
    step s = .next (s.advance.idleEdge s.input) := by
  simp [step, State.edge, h, hp]

theorem step_busy {s : State} {w : Work} (h : s.input.rst = false) (hp : s.phase = .busy w) :
    step s = s.advance.busyEdge s.input w := by
  simp [step, State.edge, h, hp]

/-- What an edge in BUSY does: it goes on waiting or working, issues the request, or completes. -/
def State.BusyTo (i : Inputs) (w : Work) (s t : State) : Prop :=
  (∃ n, w = .running (n + 2) ∧ t = s.stayBusy (.running (n + 1))) ∨
  (∃ n after, w = .toRequest (n + 2) after ∧ t = s.stayBusy (.toRequest (n + 1) after)) ∨
  (∃ n after x, w = .toRequest n after ∧ n ≤ 1 ∧ s.request? = some x ∧ t = s.issue x after) ∨
  (∃ n after, w = .toRequest n (after + 1) ∧ n ≤ 1 ∧ s.request? = none ∧ t = s.stayBusy (.running (after + 1))) ∨
  (∃ x after, w = .asked x after ∧ i.redDone = false ∧ t = s.stayBusy (.asked x after)) ∨
  (∃ x after, w = .asked x (after + 1) ∧ i.redDone = true ∧
    t = s.stayBusy (.answered (i.answer x) (after + 1))) ∨
  (∃ r n, w = .answered r (n + 2) ∧ t = s.stayBusy (.answered r (n + 1))) ∨
  (∃ n, w = .running n ∧ n ≤ 1 ∧ s.runLatched = .next t ∧ s.EndsAs t) ∨
  (∃ n, w = .toRequest n 0 ∧ n ≤ 1 ∧ s.request? = none ∧ s.runLatched = .next t ∧ s.EndsAs t) ∨
  (∃ x, w = .asked x 0 ∧ i.redDone = true ∧
    State.runLatched { s with phase := .busy (.answered (i.answer x) 0) } = .next t ∧
    State.EndsAs { s with phase := .busy (.answered (i.answer x) 0) } t) ∨
  (∃ r n, w = .answered r n ∧ n ≤ 1 ∧ s.runLatched = .next t ∧ s.EndsAs t)

theorem busyEdge_cases (i : Inputs) (w : Work) (s : State) :
    ∃ t, s.busyEdge i w = .next t ∧ State.BusyTo i w s t := by
  obtain ⟨u, hu, eu⟩ := runLatched_endsAs s
  match w with
  | .running (n + 2) => exact ⟨_, rfl, .inl ⟨n, rfl, rfl⟩⟩
  | .running 0 =>
    exact ⟨u, hu, .inr <| .inr <| .inr <| .inr <| .inr <| .inr <| .inr <| .inl ⟨0, rfl, by omega, hu, eu⟩⟩
  | .running 1 =>
    exact ⟨u, hu, .inr <| .inr <| .inr <| .inr <| .inr <| .inr <| .inr <| .inl ⟨1, rfl, by omega, hu, eu⟩⟩
  | .toRequest (n + 2) after => exact ⟨_, rfl, .inr <| .inl ⟨n, after, rfl, rfl⟩⟩
  | .toRequest 0 after =>
    cases hr : s.request? with
    | some x =>
      exact ⟨_, by simp only [State.busyEdge, hr], .inr <| .inr <| .inl ⟨0, after, x, rfl, by omega, hr, rfl⟩⟩
    | none =>
      cases after with
      | zero =>
        exact ⟨u, by simp only [State.busyEdge, hr, hu],
          .inr <| .inr <| .inr <| .inr <| .inr <| .inr <| .inr <| .inr <| .inl ⟨0, rfl, by omega, hr, hu, eu⟩⟩
      | succ after =>
        exact ⟨_, by simp only [State.busyEdge, hr],
          .inr <| .inr <| .inr <| .inl ⟨0, after, rfl, by omega, hr, rfl⟩⟩
  | .toRequest 1 after =>
    cases hr : s.request? with
    | some x =>
      exact ⟨_, by simp only [State.busyEdge, hr], .inr <| .inr <| .inl ⟨1, after, x, rfl, by omega, hr, rfl⟩⟩
    | none =>
      cases after with
      | zero =>
        exact ⟨u, by simp only [State.busyEdge, hr, hu],
          .inr <| .inr <| .inr <| .inr <| .inr <| .inr <| .inr <| .inr <| .inl ⟨1, rfl, by omega, hr, hu, eu⟩⟩
      | succ after =>
        exact ⟨_, by simp only [State.busyEdge, hr],
          .inr <| .inr <| .inr <| .inl ⟨1, after, rfl, by omega, hr, rfl⟩⟩
  | .asked x after =>
    cases hd : i.redDone with
    | false =>
      exact ⟨_, by simp only [State.busyEdge, hd],
        .inr <| .inr <| .inr <| .inr <| .inl ⟨x, after, rfl, hd, rfl⟩⟩
    | true =>
      cases after with
      | zero =>
        obtain ⟨v, hv, ev⟩ := runLatched_endsAs { s with phase := .busy (.answered (i.answer x) 0) }
        exact ⟨v, by simp only [State.busyEdge, hd, hv],
          .inr <| .inr <| .inr <| .inr <| .inr <| .inr <| .inr <| .inr <| .inr <| .inl ⟨x, rfl, hd, hv, ev⟩⟩
      | succ after =>
        exact ⟨_, by simp only [State.busyEdge, hd],
          .inr <| .inr <| .inr <| .inr <| .inr <| .inl ⟨x, after, rfl, hd, rfl⟩⟩
  | .answered r (n + 2) =>
    exact ⟨_, rfl, .inr <| .inr <| .inr <| .inr <| .inr <| .inr <| .inl ⟨r, n, rfl, rfl⟩⟩
  | .answered r 0 =>
    exact ⟨u, hu, .inr <| .inr <| .inr <| .inr <| .inr <| .inr <| .inr <| .inr <| .inr <| .inr
      ⟨r, 0, rfl, by omega, hu, eu⟩⟩
  | .answered r 1 =>
    exact ⟨u, hu, .inr <| .inr <| .inr <| .inr <| .inr <| .inr <| .inr <| .inr <| .inr <| .inr
      ⟨r, 1, rfl, by omega, hu, eu⟩⟩

/-- Everything one clock edge can do. -/
theorem step_cases {s t : State} (h : step s = .next t) :
    (s.input.rst = true ∧ t = s.advance.resetEdge) ∨
    (s.input.rst = false ∧ s.phase = .idle ∧ s.input.cmdValid = true ∧ t = s.advance.accept s.input.cmd) ∨
    (s.input.rst = false ∧ s.phase = .idle ∧ s.input.cmdValid = false ∧ t = s.advance) ∨
    (∃ w, s.input.rst = false ∧ s.phase = .busy w ∧ State.BusyTo s.input w s.advance t) := by
  cases hr : s.input.rst with
  | true =>
    rw [step_reset hr] at h
    exact .inl ⟨rfl, by injection h with h; exact h.symm⟩
  | false =>
    cases hp : s.phase with
    | idle =>
      rw [step_idle hr hp] at h
      injection h with h
      cases hv : s.input.cmdValid with
      | true => exact .inr <| .inl ⟨rfl, rfl, rfl, by rw [← h, State.idleEdge, if_pos hv]⟩
      | false => exact .inr <| .inr <| .inl ⟨rfl, rfl, rfl, by rw [← h, State.idleEdge, if_neg (by simp [hv])]⟩
    | busy w =>
      rw [step_busy hr hp] at h
      obtain ⟨u, hu, bu⟩ := busyEdge_cases s.input w s.advance
      rw [hu] at h
      injection h with h
      exact .inr <| .inr <| .inr ⟨w, rfl, rfl, h ▸ bu⟩

end Sys2Proof.Machine
end

