-- ==== Sys2Proof/Laws/Run.lean ====
section
/-!
SUPPORT. Runs of several edges: one edge at a time, and one run after another.
-/

namespace Sys2Proof.Machine

theorem run_succ_of_next {M : Host.Core} {s t : M.State} (h : M.step s = .next t) (k : Nat) :
    M.run (k + 1) s = M.run k t := by
  simp only [Host.Core.run, h]

theorem run_add_of_next {M : Host.Core} {s t : M.State} (m n : Nat) (h : M.run m s = .next t) :
    M.run (m + n) s = M.run n t := by
  induction m generalizing s with
  | zero =>
    injection h with h
    rw [h, Nat.zero_add]
  | succ m ih =>
    cases hs : M.step s with
    | next u =>
      rw [run_succ_of_next hs] at h
      rw [Nat.succ_add, run_succ_of_next hs, ih h]
    | fault r => simp [Host.Core.run, hs] at h
    | refused r => simp [Host.Core.run, hs] at h

/-- One edge of the core, then the rest of the run. -/
theorem core_run_step {s t : State} (h : step s = .next t) (k : Nat) :
    Host.Core.run core (k + 1) s = Host.Core.run core k t :=
  run_succ_of_next (M := core) h k

/-- A run of the core, then another. -/
theorem core_run_trans {s t : State} (m n : Nat) (h : Host.Core.run core m s = .next t) :
    Host.Core.run core (m + n) s = Host.Core.run core n t :=
  run_add_of_next (M := core) m n h

end Sys2Proof.Machine
end

