-- ==== Sys2Proof/Tests/Slice0.lean ====
section
/-!
SUPPORT. Tests and witnesses. Expected results are the tables of spec/95_test_vectors.md, taken over row by row; a
witness shows a state and operands that meet all the hypotheses of a statement.
-/

namespace Sys2Proof.Tests

-- One test after another: each waits for the kernel, and a waiting test holds a thread of its own.
set_option Elab.async false

open Sys2Proof Sys2Proof.Machine

/-! ## Well-formed words and lines: one ill-formed term for each check -/

/-- An unassigned and a reserved command byte, and each command's ignored fields not zero (R57, R58). -/
theorem test_wellFormed_refuses :
    (Cmd.mk 0x00 0 0 0).wellFormed = false ∧ (Cmd.mk 0x09 0 0 0).wellFormed = false ∧
    (Cmd.mk 0x11 0 0 0).wellFormed = false ∧
    (Cmd.mk 0x01 1 2 3).wellFormed = false ∧ (Cmd.mk 0x02 1 2 0).wellFormed = false ∧
    (Cmd.mk 0x03 1 2 3).wellFormed = false ∧ (Cmd.mk 0x04 1 2 3).wellFormed = false ∧
    (Cmd.mk 0x05 1 2 3).wellFormed = false ∧
    (Cmd.mk 0x06 1 2 0).wellFormed = false ∧ (Cmd.mk 0x06 1 0 3).wellFormed = false ∧
    (Cmd.mk 0x07 1 2 0).wellFormed = false ∧ (Cmd.mk 0x07 1 0 3).wellFormed = false ∧
    (Cmd.mk 0x08 1 2 0).wellFormed = false ∧ (Cmd.mk 0x08 1 0 3).wellFormed = false := by decide

theorem test_wellFormed_accepts :
    (Cmd.mk 0x01 1 2 0).wellFormed = true ∧ (Cmd.mk 0x02 1 0 3).wellFormed = true ∧
    (Cmd.mk 0x06 1 0 0).wellFormed = true := by decide

/-- A literal of exactly `2^256` in each operand place, and of `2^320` for CRED (R64). -/
theorem test_wellFormed_refuses_literals :
    (AsmLine.cred (.lit (2 ^ 320))).wellFormed = false ∧ (AsmLine.cred (.lit (2 ^ 320 - 1))).wellFormed = true ∧
    ∀ l ∈ [AsmLine.wmul (.lit (2 ^ 256)) .res, .wmul .res (.lit (2 ^ 256)), .fadd (.lit (2 ^ 256)) .res,
      .fadd .res (.lit (2 ^ 256)), .fsub (.lit (2 ^ 256)) .res, .fsub .res (.lit (2 ^ 256)),
      .fmul (.lit (2 ^ 256)) .res, .fmul .res (.lit (2 ^ 256)), .fsqr (.lit (2 ^ 256)), .fromInt (.lit (2 ^ 256)),
      .fout (.lit (2 ^ 256)), .fneg (.lit (2 ^ 256)), .fdbl (.lit (2 ^ 256)), .wsqr (.lit (2 ^ 256))],
      l.wellFormed = false := by decide +kernel

/-! ## Decoding: the words the spec lists, `{E, B, A, OP}` in hex -/

/-- `FROM 7` (95_test_vectors.md section 5). -/
theorem test_decode_from :
    decodeWord 0x00000000000000000000000000000000000000000000000000000000000000000000000000000000000000000000000000000000000000000000000000000000000000000000000707 =
      .ok (.fromInt 0x7) := by decide +kernel

/-- `FSUB 0x7fffffffffffffffffffffffffffffffffffffffffffffffffffffffffffffeb, 7` (95_test_vectors.md section 5). -/
theorem test_decode_fsub :
    decodeWord 0x000000000000000000000000000000000000000000000000000000000000000000000000000000077fffffffffffffffffffffffffffffffffffffffffffffffffffffffffffffeb04 =
      .ok (.fsub 0x7fffffffffffffffffffffffffffffffffffffffffffffffffffffffffffffeb 0x7) := by decide +kernel

/-- `FMUL 0x5, RES` (95_test_vectors.md section 5). -/
theorem test_decode_fmul :
    decodeWord 0x00000000000000007fffffffffffffffffffffffffffffffffffffffffffffffffffffffffffffe4000000000000000000000000000000000000000000000000000000000000000505 =
      .ok (.fmul 0x5 0x7fffffffffffffffffffffffffffffffffffffffffffffffffffffffffffffe4) := by decide +kernel

/-- `FOUT RES` (95_test_vectors.md section 5). -/
theorem test_decode_fout :
    decodeWord 0x000000000000000000000000000000000000000000000000000000000000000000000000000000007fffffffffffffffffffffffffffffffffffffffffffffffffffffffffffffc008 =
      .ok (.fout 0x7fffffffffffffffffffffffffffffffffffffffffffffffffffffffffffffc0) := by decide +kernel

/-- `FSQR RES` (95_test_vectors.md section 5). -/
theorem test_decode_fsqr :
    decodeWord 0x00000000000000000000000000000000000000000000000000000000000000000000000000000000000000000000010000000000000000000000000000000000000000000000000106 =
      .ok (.fsqr 0x100000000000000000000000000000000000000000000000001) := by decide +kernel

/-- `FADD 1, 2` (95_test_vectors.md section 5). -/
theorem test_decode_fadd :
    decodeWord 0x00000000000000000000000000000000000000000000000000000000000000000000000000000002000000000000000000000000000000000000000000000000000000000000000103 =
      .ok (.fadd 0x1 0x2) := by decide +kernel

/-- `CRED 0xffffffffffffffffffffffffffffffffffffffffffffffffffffffffffffffda` (95_test_vectors.md section 5). -/
theorem test_decode_cred :
    decodeWord 0x00000000000000000000000000000000000000000000000000000000000000000000000000000000ffffffffffffffffffffffffffffffffffffffffffffffffffffffffffffffda02 =
      .ok (.cred 0xffffffffffffffffffffffffffffffffffffffffffffffffffffffffffffffda 0x0) := by decide +kernel

/-- `WMUL 0x100000000000000000000000000000000, 0x80000000000000000000000000000000` (95_test_vectors.md section 5). -/
theorem test_decode_wmul :
    decodeWord 0x00000000000000000000000000000000000000000000000080000000000000000000000000000000000000000000000000000000000000010000000000000000000000000000000001 =
      .ok (.wmul 0x100000000000000000000000000000000 0x80000000000000000000000000000000) := by decide +kernel

/-- TI1 to TI7: illegal command bytes, with the reason. -/
theorem test_decode_illegal :
    decodeOp 0x00 = .error .opcodeUnassigned ∧ decodeOp 0x09 = .error .opcodeUnassigned ∧
    decodeOp 0x0f = .error .opcodeUnassigned ∧ decodeOp 0x10 = .error .reservedBitsSet ∧
    decodeOp 0x11 = .error .reservedBitsSet ∧ decodeOp 0x81 = .error .reservedBitsSet ∧
    decodeOp 0xff = .error .reservedBitsSet := by decide

/-! ## The rules of the commands, on the vectors of 95_test_vectors.md sections 2 to 4 -/

/-- The illustrative modulus `2^255 - 19` of the vectors of section 2. -/
def illustrative : Modulus := ⟨2 ^ 255 - 19, by decide, by decide⟩

/-- The hypothetical modulus `2^256 - 189` of section 3. -/
def phi : Modulus := ⟨2 ^ 256 - 189, by decide, by decide⟩

/-- The modulus of section 4. -/
def generalKnowledge : Modulus :=
  ⟨0x30644e72e131a029b85045b68181585d97816a916871ca8d3c208c16d87cfd47, by decide, by decide⟩

/-- A reducer that meets its contract. -/
def residue (p : Modulus) (x : WideWord) : FieldWord := BitVec.ofNat 256 (x.toNat % p.val)

/-- WMUL: the widest carry chain, one limb, the 256-bit boundary, mixed limbs (TW3, TW4, TW5, TW7). -/
theorem test_wmul :
    wmulRule 0xffffffffffffffffffffffffffffffffffffffffffffffffffffffffffffffff 0xffffffffffffffffffffffffffffffffffffffffffffffffffffffffffffffff =
      .ok 0xfffffffffffffffffffffffffffffffffffffffffffffffffffffffffffffffe0000000000000000000000000000000000000000000000000000000000000001 ∧
    wmulRule 0xffffffffffffffff 0xffffffffffffffff =
      .ok 0xfffffffffffffffe0000000000000001 ∧
    wmulRule 0x8000000000000000000000000000000000000000000000000000000000000000 0x2 =
      .ok 0x10000000000000000000000000000000000000000000000000000000000000000 ∧
    wmulRule 0x123456789abcdeffedcba98765432100f1e2d3c4b5a69788796a5b4c3d2e1f0 0xdeadbeefcafebabe00112233445566778899aabbccddeeff0102030405060708 =
      .ok 0xfd5bdeeeb2a01e5c6700844bfd0fedbce040c28085ece961979a477d18f8fa32a6cda7a84474711c5ff50cd889505ee4e9edf0f2f3f3f4011e2c1bde649f80 := by decide +kernel

/-- CRED: `v = P`, the largest legal input, and both kinds of contract violation (TC2, TC3, TC5, TC6, TC7). -/
theorem test_cred :
    credRule illustrative 0x7fffffffffffffffffffffffffffffffffffffffffffffffffffffffffffffec 0x0 =
      .ok 0x7fffffffffffffffffffffffffffffffffffffffffffffffffffffffffffffec ∧
    credRule illustrative 0x7fffffffffffffffffffffffffffffffffffffffffffffffffffffffffffffed 0x0 =
      .ok 0x0 ∧
    credRule illustrative 0xffffffffffffffffffffffffffffffffffffffffffffffffffffffffffffffd9 0x0 =
      .ok 0x7fffffffffffffffffffffffffffffffffffffffffffffffffffffffffffffec ∧
    credRule illustrative 0xffffffffffffffffffffffffffffffffffffffffffffffffffffffffffffffda 0x0 =
      .contract ∧
    credRule illustrative 0x0 0x1 =
      .contract := by decide +kernel

/-- CRED with the fifth limb in use (TH4, TH6, TH7, TH8). -/
theorem test_cred_above_2_255 :
    credRule phi 0x0 0x1 =
      .ok 0xbd ∧
    credRule phi 0xfffffffffffffffffffffffffffffffffffffffffffffffffffffffffffffe85 0x1 =
      .ok 0xffffffffffffffffffffffffffffffffffffffffffffffffffffffffffffff42 ∧
    credRule phi 0xfffffffffffffffffffffffffffffffffffffffffffffffffffffffffffffe86 0x1 =
      .contract ∧
    credRule phi 0x0 0x2 =
      .contract := by decide +kernel

/-- FADD: the scenario of the source, sum P, largest sum, a violation (TA1, TA4, TA5, TA7, TA8). -/
theorem test_fadd :
    faddRule illustrative 0x7fffffffffffffffffffffffffffffffffffffffffffffffffffffffffffffec 0x2 =
      .ok 0x1 ∧
    faddRule illustrative 0x7fffffffffffffffffffffffffffffffffffffffffffffffffffffffffffffec 0x1 =
      .ok 0x0 ∧
    faddRule illustrative 0x7fffffffffffffffffffffffffffffffffffffffffffffffffffffffffffffec 0x7fffffffffffffffffffffffffffffffffffffffffffffffffffffffffffffec =
      .ok 0x7fffffffffffffffffffffffffffffffffffffffffffffffffffffffffffffeb ∧
    faddRule illustrative 0x7fffffffffffffffffffffffffffffffffffffffffffffffffffffffffffffed 0x0 =
      .contract ∧
    faddRule illustrative 0x0 0xffffffffffffffffffffffffffffffffffffffffffffffffffffffffffffffff =
      .contract := by decide +kernel

/-- FADD with a carry out of the fourth limb (TH1, TH2). -/
theorem test_fadd_carry :
    faddRule phi 0xffffffffffffffffffffffffffffffffffffffffffffffffffffffffffffff42 0xffffffffffffffffffffffffffffffffffffffffffffffffffffffffffffff42 =
      .ok 0xffffffffffffffffffffffffffffffffffffffffffffffffffffffffffffff41 ∧
    faddRule phi 0x8000000000000000000000000000000000000000000000000000000000000000 0x8000000000000000000000000000000000000000000000000000000000000000 =
      .ok 0xbd := by decide +kernel

/-- FSUB: no borrow, borrow, violations (TS1, TS2, TS6, TS7, TS8, TH9). -/
theorem test_fsub :
    fsubRule illustrative 0x5 0x3 =
      .ok 0x2 ∧
    fsubRule illustrative 0x0 0x1 =
      .ok 0x7fffffffffffffffffffffffffffffffffffffffffffffffffffffffffffffec ∧
    fsubRule illustrative 0x100000000000000000000000000000000000000000000000000 0x200000000000000000000000000000000000000000000000000 =
      .ok 0x7ffffffffffffeffffffffffffffffffffffffffffffffffffffffffffffffed ∧
    fsubRule illustrative 0x7fffffffffffffffffffffffffffffffffffffffffffffffffffffffffffffed 0x0 =
      .contract ∧
    fsubRule illustrative 0x1 0x7fffffffffffffffffffffffffffffffffffffffffffffffffffffffffffffed =
      .contract ∧
    fsubRule phi 0x0 0xffffffffffffffffffffffffffffffffffffffffffffffffffffffffffffff42 =
      .ok 0x1 := by decide +kernel

/-- FMUL with a reducer that meets its contract, and violations (TM3, TM5, TM7, TM8, TB7). -/
theorem test_fmul :
    reduceRule (fmulRequest illustrative 0x7fffffffffffffffffffffffffffffffffffffffffffffffffffffffffffffec 0x7fffffffffffffffffffffffffffffffffffffffffffffffffffffffffffffec) (residue illustrative) =
      .ok 0x1 ∧
    reduceRule (fmulRequest illustrative 0x7fffffffffffffffffffffffffffffffffffffffffffffffffffffffffffffec 0x3) (residue illustrative) =
      .ok 0x7fffffffffffffffffffffffffffffffffffffffffffffffffffffffffffffea ∧
    reduceRule (fmulRequest illustrative 0x7fffffffffffffffffffffffffffffffffffffffffffffffffffffffffffffed 0x1) (residue illustrative) =
      .contract ∧
    reduceRule (fmulRequest illustrative 0x1 0xffffffffffffffffffffffffffffffffffffffffffffffffffffffffffffffff) (residue illustrative) =
      .contract ∧
    reduceRule (fmulRequest generalKnowledge 0x2 0x183227397098d014dc2822db40c0ac2ecbc0b548b438e5469e10460b6c3e7ea4) (residue generalKnowledge) =
      .ok 0x1 := by decide +kernel

/-- FSQR with a reducer that meets its contract, and a violation (TM10, TM11, TM12, TB4). -/
theorem test_fsqr :
    reduceRule (fsqrRequest illustrative 0x7fffffffffffffffffffffffffffffffffffffffffffffffffffffffffffffec) (residue illustrative) =
      .ok 0x1 ∧
    reduceRule (fsqrRequest illustrative 0x100000000000000000000000000000000) (residue illustrative) =
      .ok 0x26 ∧
    reduceRule (fsqrRequest illustrative 0x7fffffffffffffffffffffffffffffffffffffffffffffffffffffffffffffed) (residue illustrative) =
      .contract ∧
    reduceRule (fsqrRequest generalKnowledge 0x100000000000000000000000000000000) (residue generalKnowledge) =
      .ok 0xe0a77c19a07df2f666ea36f7879462c0a78eb28f5c70b3dd35d438dc58f0d9d := by decide +kernel

/-- FROM: the largest accepted integer and the smallest refused (TV2, TV3, TB5). -/
theorem test_from :
    fromRule illustrative 0x7fffffffffffffffffffffffffffffffffffffffffffffffffffffffffffffec =
      .ok 0x7fffffffffffffffffffffffffffffffffffffffffffffffffffffffffffffec ∧
    fromRule illustrative 0x7fffffffffffffffffffffffffffffffffffffffffffffffffffffffffffffed =
      .outOfRange ∧
    fromRule generalKnowledge 0x30644e72e131a029b85045b68181585d97816a916871ca8d3c208c16d87cfd47 =
      .outOfRange := by decide +kernel

/-- FOUT: the identity, and a violation where FROM is out of range (TV5, TV6). -/
theorem test_fout :
    foutRule illustrative 0x7fffffffffffffffffffffffffffffffffffffffffffffffffffffffffffffec =
      .ok 0x7fffffffffffffffffffffffffffffffffffffffffffffffffffffffffffffec ∧
    foutRule illustrative 0x7fffffffffffffffffffffffffffffffffffffffffffffffffffffffffffffed =
      .contract := by decide +kernel

/-! ## One edge of the machine -/

/-- A view of the state after an edge. -/
def after {β : Type} (o : Host.Outcome State Fault Refusal) (view : State → β) : Option β :=
  match o with
  | .next t => some (view t)
  | .fault _ => none
  | .refused _ => none

/-- TW5 as one edge from reset: RESULT, STATUS `0x01`, `done`. -/
theorem test_step_wmul :
    after (step (State.reset.withCommandDue ⟨0x01, 0x8000000000000000000000000000000000000000000000000000000000000000, 2, 0⟩))
      (fun t => (t.result, t.status, t.done)) =
      some (0x10000000000000000000000000000000000000000000000000000000000000000, 0x01, true) := by decide +kernel

/-- TI5: byte 0x11 ends in ILLEGAL, STATUS `0x16`. -/
theorem test_step_illegal :
    after (step (State.reset.withFetchWord 8 0x11)) (fun t => (t.status, t.done)) = some (0x16, true) := by
  decide +kernel

/-- P3 step 4: an OK completion with FAULT already set leaves STATUS `0x11`. -/
theorem test_step_fault_stays :
    after (step { State.reset.withFetchWord 8 0x01 with fault := true }) State.status = some 0x11 := by decide +kernel

/-- TV4: FROM `2^256 - 1`, out of range for every modulus, STATUS `0x02`. -/
theorem test_step_out_of_range :
    after (step (State.reset.withCommandDue ⟨0x07, BitVec.allOnes 256, 0, 0⟩)) (fun t => (t.code, t.fault, t.valid)) =
      some (.outOfRange, false, false) := by
  have h : ¬ (BitVec.allOnes 256).toNat < Config.modulus.val := by
    have := Config.modulus.lt
    rw [BitVec.toNat_allOnes]
    omega
  have due : step (State.reset.withCommandDue ⟨0x07, BitVec.allOnes 256, 0, 0⟩) =
      exec (.fromInt (BitVec.allOnes 256)) (State.reset.withCommandDue ⟨0x07, BitVec.allOnes 256, 0, 0⟩).advance := rfl
  rw [due, exec_eq_finish, ruleOf, fromRule_eq, if_neg h]
  rfl

/-- The trace of section 6, edge t1: a presented FADD is captured, BUSY (bit 5) and VALID 0; a second presented command
waits. -/
theorem test_step_accept :
    after (step { State.reset with inputs := [Inputs.present ⟨0x03, 5, 2, 0⟩] })
      (fun t => (t.latched, t.busy, t.valid, t.fault, t.cmdReady)) = some (⟨0x03, 5, 2, 0⟩, true, false, false, false) ∧
    after (step { State.reset with phase := .busy (.running 7), inputs := [Inputs.present ⟨0x03, 5, 2, 0⟩] })
      (fun t => (t.latched, t.phase)) = some (⟨0, 0, 0, 0⟩, .busy (.running 6)) := by decide +kernel

/-- The trace of section 6: the request of FMUL 1, 0 goes out with `red_start` for one cycle, `red_x` is held, and at
`red_done` the answer on the wires is sampled. -/
theorem test_step_request :
    after (step { State.reset with op := 0x05, a := 1, phase := .busy (.toRequest 1 3) })
      (fun t => (t.redStart, t.redX)) = some (true, some 0) ∧
    after (step { State.reset with op := 0x05, a := 1, redStart := true, phase := .busy (.asked 0 3) })
      (fun t => (t.redStart, t.redX)) = some (false, some 0) ∧
    after (step { State.reset with
        op := 0x05, a := 1, phase := .busy (.asked 0 3), inputs := [⟨false, false, ⟨0, 0, 0, 0⟩, true, some 9⟩] })
      (fun t => (t.redX, t.phase)) = some (none, .busy (.answered 9 3)) := by decide +kernel

/-- R112, R115: the sampled answer is the result, whatever it is. -/
theorem test_step_unchecked_answer :
    after (step { State.reset with op := 0x05, a := 1, phase := .busy (.answered 9 1) })
      (fun t => (t.result, t.status)) = some (9, 0x01) := by decide +kernel

/-- R145: a reset while a request is outstanding withdraws it, with no `done`. -/
theorem test_step_reset :
    after (step { State.reset with
        op := 0x05, fault := true, phase := .busy (.asked 0 3)
        inputs := [⟨true, true, ⟨3, 1, 2, 0⟩, true, some 9⟩] })
      (fun t => (t.status, t.done, t.redX, t.phase)) = some (0x00, false, none, .idle) := by decide +kernel

/-! ## The assembler -/

/-- A view of an assembled word or a parsed line. -/
def answer? {β : Type} (o : Host.Outcome β Fault Refusal) : Option β :=
  match o with
  | .next t => some t
  | .fault _ => none
  | .refused _ => none

/-- P4 steps 2 to 4: `CRED RES`, `FNEG RES` and `FDBL RES`. -/
theorem test_assemble :
    answer? (assemble illustrative { State.reset with valid := true, result := 2 ^ 255 } (.cred .res)) =
      some ⟨0x02, 0x8000000000000000000000000000000000000000000000000000000000000000, 0, 0⟩ ∧
    answer? (assemble illustrative { State.reset with valid := true, result := 0x13 } (.fneg .res)) =
      some ⟨0x04, 0, 0x13, 0⟩ ∧
    answer? (assemble illustrative { State.reset with valid := true, result := 7 } (.fdbl .res)) =
      some ⟨0x03, 7, 7, 0⟩ ∧
    answer? (assemble illustrative State.reset (.fdbl .res)) = none ∧
    answer? (assemble illustrative State.reset (.fromInt .modulus)) =
      some ⟨0x07, 0x7fffffffffffffffffffffffffffffffffffffffffffffffffffffffffffffed, 0, 0⟩ := by decide +kernel

/-- `fmul 0x5, RES ; x` (P1 step 5), `FZERO`, and two texts that are no line. -/
theorem test_parse :
    answer? (parseLine ['f', 'm', 'U', 'l', ' ', '0', 'x', '5', ',', ' ', 'R', 'E', 'S', ' ', ';', 'x']) =
      some (.fmul (.lit 5) .res) ∧
    answer? (parseLine ['F', 'Z', 'E', 'R', 'O']) = some .fzero ∧
    answer? (parseLine ['F', 'R', 'O', 'M', ' ', '1', '0', 'A']) = none ∧
    answer? (parseLine ['F', 'R', 'O', 'M', ' ', '1', ',', '2']) = none := by decide +kernel

/-! ## Witnesses: each statement's hypotheses can be met -/

theorem two_le_P : 2 ≤ Config.P := Config.modulus.two_le

theorem P_le_allOnes : Config.P ≤ (BitVec.allOnes 256).toNat := by
  have : Config.P < 2 ^ 256 := Config.modulus.lt
  rw [BitVec.toNat_allOnes]
  omega

/-- The two smallest field elements of every modulus. -/
theorem zero_one_lt_P : (0#256).toNat < Config.P ∧ (1#256).toNat < Config.P := by
  have := two_le_P
  constructor <;> (simp; omega)

theorem witness_EncodeOfDecode :
    (Cmd.ofBits (encode (.cred 5 6))).wellFormed = true ∧ decodeWord (encode (.cred 5 6)) = .ok (.cred 5 6) := by
  decide +kernel

theorem witness_DecodeReadsOpAlone : (Cmd.mk 3 1 2 0).op = (Cmd.mk 3 9 8 7).op := by decide

/-- AddLimbsLaw: with a carry out and without. -/
theorem witness_AddLimbsLaw :
    [BitVec.allOnes 64].length = [1#64].length ∧ (addLimbs [BitVec.allOnes 64] [1]).2 = true ∧
    (addLimbs [BitVec.allOnes 64] [0]).2 = false := by decide +kernel

/-- SubLimbsLaw: with a borrow out and without. -/
theorem witness_SubLimbsLaw :
    [0#64].length = [1#64].length ∧ (subLimbs [0] [1]).2 = true ∧ (subLimbs [1] [1]).2 = false := by decide +kernel

theorem witness_WideMultiplyExact : (limbs 4 7).length = 4 ∧ (limbs 4 (2 ^ 256 - 1)).length = 4 := by decide +kernel

/-- BorrowSaysBelowModulus, DiscardedLimbsAreZero and ConditionalReduceCorrect: `v = P` (no borrow) and `v = P - 1`
(borrow), for a modulus above `2^255`, and a legal CRED input for every modulus. -/
theorem witness_ConditionalReduceCorrect :
    (limbs 5 phi.val).length = 5 ∧ val (limbs 5 phi.val) < 2 * phi.val ∧ phi.val ≤ val (limbs 5 phi.val) ∧
    (subLimbs (limbs 5 phi.val) (modulusLimbs5 phi)).2 = false ∧
    (limbs 5 (phi.val - 1)).length = 5 ∧ val (limbs 5 (phi.val - 1)) < phi.val ∧
    (subLimbs (limbs 5 (phi.val - 1)) (modulusLimbs5 phi)).2 = true := by decide +kernel

/-- CredCompletes: `v = 3 < 4 <= 2P`. -/
theorem witness_CredCompletes : (3#256).toNat + 2 ^ 256 * (0#64).toNat < 2 * Config.P := by
  have := two_le_P
  simp
  omega

/-- SubtractionFormsAgree, with the first operand the less. -/
theorem witness_SubtractionFormsAgree : (0#256).toNat < phi.val ∧ (1#256).toNat < phi.val := by decide

/-- FaddCompletes, FsubCompletes, FmulCompletes (0 and 1), FsqrCompletes, FromCompletes, FoutCompletes, FromThenFout,
PseudoInstructions (1). -/
theorem witness_FieldCommandsComplete : (0#256).toNat < Config.P ∧ (1#256).toNat < Config.P := zero_one_lt_P

/-- ReducerContractSuffices: a reducer that meets its contract, and operands below its modulus. -/
theorem witness_ReducerContractSuffices :
    ReducerCorrect illustrative (residue illustrative) ∧
    (0#256).toNat < illustrative.val ∧ (1#256).toNat < illustrative.val := by
  refine ⟨fun x _ => ?_, by decide, by decide⟩
  have := Nat.mod_lt x.toNat (show 0 < illustrative.val by decide)
  have := illustrative.lt
  rw [residue, BitVec.toNat_ofNat, Nat.mod_eq_of_lt (by omega)]

/-- A state in which the answer 1 has been sampled. -/
def sampledOne : State := { State.reset with phase := .busy (.answered 1 1) }

/-- ReducedProductIsResidue: 1 times 1, answered with 1. -/
theorem witness_ReducedProductIsResidue :
    (1#256).toNat < Config.P ∧
    (sampledOne.reduce (BitVec.ofNat 512 ((1#256).toNat * (1#256).toNat))).toNat =
      (1#256).toNat * (1#256).toNat % Config.P := by
  have := two_le_P
  refine ⟨zero_one_lt_P.2, ?_⟩
  rw [Nat.mod_eq_of_lt (by simp; omega)]
  rfl

/-- ContractViolationOutcome: every command that has a precondition can break it, and WMUL and FROM cannot. -/
theorem witness_ContractViolationOutcome :
    violatesPrecondition Config.modulus (.cred (BitVec.allOnes 256) (BitVec.allOnes 64)) ∧
    violatesPrecondition Config.modulus (.fadd (BitVec.allOnes 256) 0) ∧
    violatesPrecondition Config.modulus (.fsub 0 (BitVec.allOnes 256)) ∧
    violatesPrecondition Config.modulus (.fmul (BitVec.allOnes 256) 0) ∧
    violatesPrecondition Config.modulus (.fsqr (BitVec.allOnes 256)) ∧
    violatesPrecondition Config.modulus (.fout (BitVec.allOnes 256)) ∧
    ¬ violatesPrecondition Config.modulus (.wmul (BitVec.allOnes 256) 0) ∧
    ¬ violatesPrecondition Config.modulus (.fromInt (BitVec.allOnes 256)) := by
  have h := P_le_allOnes
  have lt : Config.modulus.val < 2 ^ 256 := Config.modulus.lt
  refine ⟨?_, .inl h, .inr h, .inl h, h, h, id, id⟩
  simp [violatesPrecondition]
  omega

/-- OutOfRangeOutcome: an integer no modulus admits. -/
theorem witness_OutOfRangeOutcome :
    Config.P ≤ (BitVec.allOnes 256).toNat ∧
    after (exec (.fromInt (BitVec.allOnes 256)) State.reset) State.code = some .outOfRange := by
  have h := P_le_allOnes
  refine ⟨h, ?_⟩
  rw [exec_eq_finish, ruleOf, fromRule_eq, if_neg (by show ¬ _ < Config.P; omega)]
  rfl

/-- IllegalCommandOutcome: an unassigned byte and a reserved one, due at the coming edge. -/
theorem witness_IllegalCommandOutcome :
    decodeOp (State.reset.withFetchWord 8 0x09).op = .error .opcodeUnassigned ∧
    decodeOp (State.reset.withFetchWord 8 0x11).op = .error .reservedBitsSet ∧
    (State.reset.withFetchWord 8 0x09).phase = .busy (.running 1) ∧
    (State.reset.withFetchWord 8 0x09).input.rst = false := by decide +kernel

/-- FourLimbResultsZeroExtended and FieldClosure: FOUT 0 completes with VALID. -/
theorem witness_FieldClosure :
    (Instr.fout 0).opcode ≠ .wmul ∧ (Instr.fout 0).opcode ≠ .fmul ∧ (Instr.fout 0).opcode ≠ .fsqr ∧
    after (exec (.fout 0) State.reset) State.valid = some true := by decide +kernel

/-- CommandFrame: a command from reset. -/
theorem witness_CommandFrame : (after (exec (.wmul 2 3) State.reset) id).isSome = true := by decide +kernel

/-- StatusAfterOutcome, BusyIsThePhase and ValidTracksOutcome: a completion of each kind, with FAULT clear and set. -/
theorem witness_StatusAfterOutcome :
    after (State.runLatched { State.reset with op := 0x01 }) State.code = some .ok ∧
    after (State.runLatched { State.reset with op := 0x01, fault := true }) State.code = some .ok ∧
    after (State.runLatched { State.reset with op := 0x00 }) State.code = some .illegal ∧
    after (State.runLatched { State.reset with op := 0x07, a := BitVec.allOnes 256 }) State.code = some .outOfRange ∧
    after (State.runLatched { State.reset with op := 0x08, a := BitVec.allOnes 256 }) State.code = some .contract := by
  have h := P_le_allOnes
  refine ⟨by decide +kernel, by decide +kernel, by decide +kernel, ?_, ?_⟩
  · rw [runLatched_ok (i := .fromInt (BitVec.allOnes 256)) rfl, exec_eq_finish, ruleOf, fromRule_eq,
      if_neg (by show ¬ _ < Config.P; omega)]
    rfl
  · rw [runLatched_ok (i := .fout (BitVec.allOnes 256)) rfl, exec_eq_finish, ruleOf, foutRule_eq,
      if_neg (by show ¬ _ < Config.P; omega)]
    rfl

/-- HostReads and ValidTracksOutcome: BUSY; IDLE without a value; IDLE with one. -/
theorem witness_HostReads :
    sampledOne.phase ≠ .idle ∧ (State.reset.phase = .idle ∧ State.reset.valid = false) ∧
    ({ State.reset with valid := true } : State).phase = .idle := by decide

/-- The inputs of an edge with `rst = 1` at which a completion would be due. -/
def resetInputs : Inputs := { Inputs.idle with rst := true }

/-- FaultIsSticky, DoneMarksCompletion, StepKeepsInvariant: edges with and without reset answer, and the invariant
holds where they start. -/
theorem witness_FaultIsSticky :
    (after (step State.reset) id).isSome = true ∧ State.reset.input.rst = false ∧
    (after (step { sampledOne with inputs := [resetInputs] }) id).isSome = true ∧
    ({ sampledOne with inputs := [resetInputs] } : State).input.rst = true := by decide +kernel

theorem witness_StepKeepsInvariant : State.reset.Inv ∧ (after (step State.reset) id).isSome = true :=
  ⟨by simp [State.Inv, State.reset], by decide +kernel⟩

/-- StepRunsDecoded: a command due by its own count, at both counts; one due at the cycle of a request it does not make;
one due after its answer, and one that its answer ends. -/
theorem witness_StepRunsDecoded :
    (State.reset.withFetchWord 8 1).input.rst = false ∧ decode (State.reset.withFetchWord 8 1).latched = .ok (.wmul 0 0) ∧
    (State.reset.withFetchWord 8 1).phase = .busy (.running 1) ∧
    decode ({ State.reset with op := 0x01, phase := .busy (.running 0) } : State).latched = .ok (.wmul 0 0) ∧
    decode ({ sampledOne with op := 0x05 } : State).latched = .ok (.fmul 0 0) ∧ sampledOne.phase = .busy (.answered 1 1) := by
  decide +kernel

theorem witness_StepRunsDecoded_violation :
    let s : State := { State.reset with op := 0x06, a := BitVec.allOnes 256, phase := .busy (.toRequest 1 0) }
    s.input.rst = false ∧ decode s.latched = .ok (.fsqr (BitVec.allOnes 256)) ∧ s.request? = none := by
  refine ⟨rfl, rfl, ?_⟩
  have h := P_le_allOnes
  show requestOf Config.modulus (.fsqr (BitVec.allOnes 256)) = none
  rw [requestOf, fsqrRequest_eq, if_neg (by show ¬ _ < Config.P; omega)]

theorem witness_StepRunsDecoded_answer :
    let s : State := { State.reset with
      op := 0x05, phase := .busy (.asked 0 0), inputs := [{ Inputs.idle with redDone := true }] }
    s.input.rst = false ∧ decode s.latched = .ok (.fmul 0 0) ∧ s.phase = .busy (.asked 0 0) ∧ s.input.redDone = true := by
  decide +kernel

theorem witness_FetchedWordRuns : decodeTableWord 8 0x08 = some (.fout 0) := by decide +kernel

/-- CommandAcceptance: a command presented in IDLE, and one presented in BUSY or at a reset. -/
theorem witness_CommandAcceptance :
    ({ State.reset with inputs := [Inputs.present ⟨0x03, 1, 2, 0⟩] } : State).cmdReady = true ∧
    ({ sampledOne with inputs := [Inputs.present ⟨0x03, 1, 2, 0⟩] } : State).cmdReady = false ∧
    ({ State.reset with inputs := [resetInputs] } : State).cmdReady = false := by decide +kernel

/-- CapturedOperandsHold, StrayAnswerIgnored (BUSY without a request) and IdleEdgeHolds. -/
theorem witness_CapturedOperandsHold :
    ({ sampledOne with inputs := [Inputs.present ⟨0x03, 1, 2, 0⟩] } : State).inputs = [Inputs.present ⟨0x03, 1, 2, 0⟩] ∧
    (Inputs.present ⟨0x03, 1, 2, 0⟩).rst = false ∧ sampledOne.phase ≠ .idle ∧ sampledOne.redX = none ∧
    State.reset.phase = .idle ∧ State.reset.input.cmdValid = false := by decide +kernel

/-- A state with an outstanding request. -/
def askedZero : State := { State.reset with op := 0x05, phase := .busy (.asked 0 3) }

/-- ResetWithdrawsRequest and ResetWins: reset while a request is outstanding, then a late answer. -/
theorem witness_ResetWithdrawsRequest :
    askedZero.phase = .busy (.asked 0 3) ∧ resetInputs.rst = true ∧
    ({ Inputs.idle with redDone := true } : Inputs).rst = false ∧
    ({ Inputs.idle with redDone := true } : Inputs).cmdValid = false := by decide +kernel

/-- RequestIsHeld and RequestsAreBelowSquare: an outstanding request without an answer, and an edge that issues one. -/
theorem witness_RequestIsHeld :
    askedZero.redX = some 0 ∧ askedZero.input.rst = false ∧ askedZero.input.redDone = false ∧
    after (step { State.reset with op := 0x05, phase := .busy (.toRequest 1 3) }) State.redStart = some true := by
  decide +kernel

theorem requestCycle_le (k : Opcode) : Config.requestCycle k ≤ Config.latency (some k) :=
  Nat.mod_lt _ (Nat.succ_pos _)

/-- LatencyIsConstant and HandshakeRunsCommand: FADD 0, 1 presented in IDLE, then quiet edges. -/
theorem witness_HandshakeRunsCommand :
    let s : State := { State.reset with
      inputs := Inputs.present ⟨0x03, 0, 1, 0⟩ :: (List.replicate (Config.latency (some .fadd)) Inputs.idle ++ []) }
    s.phase = .idle ∧ (Inputs.present ⟨0x03, 0, 1, 0⟩).rst = false ∧ (Inputs.present ⟨0x03, 0, 1, 0⟩).cmdValid = true ∧
    reducerFree (Inputs.present ⟨0x03, 0, 1, 0⟩).cmd.op ∧
    (List.replicate (Config.latency (some .fadd)) Inputs.idle).length =
      Config.latency (decodeOp (Inputs.present ⟨0x03, 0, 1, 0⟩).cmd.op).toOption ∧
    (∀ j ∈ List.replicate (Config.latency (some .fadd)) Inputs.idle, j.rst = false) ∧
    decode (Inputs.present ⟨0x03, 0, 1, 0⟩).cmd = .ok (.fadd 0 1) :=
  ⟨rfl, rfl, rfl, ⟨by decide, by decide⟩, List.length_replicate,
    fun _ h => by rw [List.eq_of_mem_replicate h]; rfl, rfl⟩

/-- The same with the illegal byte 0x09. -/
theorem witness_HandshakeRunsCommand_illegal :
    let s : State := { State.reset with
      inputs := Inputs.present ⟨0x09, 0, 1, 0⟩ :: (List.replicate (Config.latency none) Inputs.idle ++ []) }
    s.phase = .idle ∧ (Inputs.present ⟨0x09, 0, 1, 0⟩).rst = false ∧ (Inputs.present ⟨0x09, 0, 1, 0⟩).cmdValid = true ∧
    reducerFree (Inputs.present ⟨0x09, 0, 1, 0⟩).cmd.op ∧
    (List.replicate (Config.latency none) Inputs.idle).length =
      Config.latency (decodeOp (Inputs.present ⟨0x09, 0, 1, 0⟩).cmd.op).toOption ∧
    (∀ j ∈ List.replicate (Config.latency none) Inputs.idle, j.rst = false) ∧
    decode (Inputs.present ⟨0x09, 0, 1, 0⟩).cmd = .error .opcodeUnassigned :=
  ⟨rfl, rfl, rfl, ⟨by decide, by decide⟩, List.length_replicate,
    fun _ h => by rw [List.eq_of_mem_replicate h]; rfl, rfl⟩

/-- ReducerLatencyIsAdded: FMUL 0, 1; its request cycle, one edge of waiting, the answer, and the rest of its latency. -/
theorem witness_ReducerLatencyIsAdded :
    let present := Inputs.present ⟨0x05, 0, 1, 0⟩
    let before := List.replicate (Config.requestCycle .fmul) Inputs.idle
    let waiting := [Inputs.idle]
    let ans : Inputs := { Inputs.idle with redDone := true }
    let later := List.replicate (Config.latency (some .fmul) - Config.requestCycle .fmul) Inputs.idle
    let s : State := { State.reset with inputs := present :: (before ++ (waiting ++ ans :: (later ++ []))) }
    s.phase = .idle ∧ present.rst = false ∧ present.cmdValid = true ∧ decode present.cmd = .ok (.fmul 0 1) ∧
    requestOf Config.modulus (.fmul 0 1) = some 0 ∧ before.length = Config.requestCycle (Instr.fmul 0 1).opcode ∧
    before.length + later.length = Config.latency (some (Instr.fmul 0 1).opcode) ∧
    (∀ j ∈ before, j.rst = false) ∧ (∀ j ∈ waiting, j.rst = false ∧ j.redDone = false) ∧
    ans.rst = false ∧ ans.redDone = true ∧ ∀ j ∈ later, j.rst = false := by
  have cycle := requestCycle_le .fmul
  refine ⟨rfl, rfl, rfl, rfl, ?_, List.length_replicate, ?_, ?_, by simp [Inputs.idle], rfl, rfl, ?_⟩
  · rw [requestOf, fmulRequest_eq]
    exact if_pos zero_one_lt_P
  · rw [List.length_replicate, List.length_replicate, Instr.opcode]
    omega
  · exact fun _ h => by rw [List.eq_of_mem_replicate h]; rfl
  · exact fun _ h => by rw [List.eq_of_mem_replicate h]; rfl

/-- ViolatingProductSendsNoRequest: FSQR of a value no modulus admits. -/
theorem witness_ViolatingProductSendsNoRequest :
    decode (Inputs.present ⟨0x06, BitVec.allOnes 256, 0, 0⟩).cmd = .ok (.fsqr (BitVec.allOnes 256)) ∧
    (Instr.fsqr (BitVec.allOnes 256)).opcode = .fsqr ∧
    violatesPrecondition Config.modulus (.fsqr (BitVec.allOnes 256)) ∧
    (List.replicate (Config.latency (some .fsqr)) Inputs.idle).length =
      Config.latency (some (Instr.fsqr (BitVec.allOnes 256)).opcode) ∧
    ∀ j ∈ List.replicate (Config.latency (some .fsqr)) Inputs.idle, j.rst = false :=
  ⟨rfl, rfl, P_le_allOnes, List.length_replicate, fun _ h => by rw [List.eq_of_mem_replicate h]; rfl⟩

/-- TimingIsDataIndependent: two idle states to which FADD is presented with different operands, and two BUSY ones. -/
theorem witness_TimingIsDataIndependent :
    sameTiming { State.reset with inputs := [Inputs.present ⟨0x03, 1, 2, 0⟩] }
      { State.reset with result := 7, inputs := [Inputs.present ⟨0x03, 8, 9, 0⟩] } ∧
    sameTiming { State.reset with op := 0x03, a := 1, phase := .busy (.running 2) }
      { State.reset with op := 0x03, a := 9, phase := .busy (.running 2) } ∧
    (after (step { State.reset with op := 0x03, a := 1, phase := .busy (.running 2) }) id).isSome = true := by
  refine ⟨⟨.inl ⟨rfl, rfl⟩, rfl, .cons ⟨rfl, rfl, rfl, rfl⟩ .nil, ?_⟩, ⟨.inr ⟨2, rfl, rfl⟩, rfl, .nil, ?_⟩, by decide +kernel⟩
  · intro i h _
    rw [List.mem_singleton.mp h]
    exact ⟨by decide, by decide⟩
  · intro i h
    cases h

/-- ResAndLiterals: a line each of the kinds it speaks of, `RES` and the literals in operand B too; and the largest
literals that fit, the smallest that do not. -/
theorem witness_ResAndLiterals :
    State.reset.valid = false ∧ ({ State.reset with valid := true } : State).valid = true ∧
    ((AsmLine.wmul (.lit 1) .res).wellFormed = true ∧ .res ∈ (AsmLine.wmul (.lit 1) .res).operands) ∧
    ((AsmLine.fsub (.lit (2 ^ 256 - 1)) .modulus).wellFormed = true ∧
      .res ∉ (AsmLine.fsub (.lit (2 ^ 256 - 1)) .modulus).operands) ∧
    (AsmLine.cred (.lit (2 ^ 320 - 1))).wellFormed = true ∧
    (AsmLine.fsub (.lit 0) (.lit (2 ^ 256))).wellFormed = false ∧
    (AsmLine.fneg (.lit (2 ^ 256))).wellFormed = false ∧ (AsmLine.cred (.lit (2 ^ 320))).wellFormed = false := by
  decide +kernel

/-- The invariant and the duties are met together by a state in the middle of an FMUL: none is contradictory. -/
theorem witness_duties : askedZero.hostHoldsCommand ∧ askedZero.reducerKeepsDuty ∧ askedZero.noFaultRecorded := by
  refine ⟨?_, ?_, rfl⟩
  · intro h
    cases h
  · intro h
    cases h

end Sys2Proof.Tests
end

section
/-!
PROOFS. The reducer's contract and the commands that rest on it (00_scope.md R9; 44_field_mul_square.md R109 to R113).
-/

namespace Sys2Proof.Machine

/-- A product of two field elements is in the range for which the reducer's contract speaks (R88, R109). -/
theorem mul_lt_modulus_sq {p : Modulus} {a b : FieldWord} (ha : a.toNat < p.val) (hb : b.toNat < p.val) :
    a.toNat * b.toNat < p.val ^ 2 := by
  rw [sq]
  exact Nat.mul_lt_mul'' ha hb

/-- A request below `P^2` fits the 512 wires of `red_x` (R8, R88). -/
theorem toNat_ofNat_of_lt_modulus_sq {p : Modulus} {n : Nat} (h : n < p.val ^ 2) :
    (BitVec.ofNat 512 n).toNat = n := by
  have square : p.val ^ 2 < (2 ^ 256) ^ 2 := Nat.pow_lt_pow_left p.lt two_ne_zero
  rw [← pow_mul] at square
  rw [BitVec.toNat_ofNat, Nat.mod_eq_of_lt (h.trans square)]

/-- A request `n < P^2`, answered by a reducer that meets its contract, completes with `n mod P` (R109, R111). -/
theorem reduceRule_of_reducerCorrect {p : Modulus} {f : WideWord → FieldWord} (hf : ReducerCorrect p f) {n : Nat}
    (h : n < p.val ^ 2) :
    ∃ r : WideWord, reduceRule (some (BitVec.ofNat 512 n)) f = .ok r ∧ r.toNat = n % p.val := by
  have wires := toNat_ofNat_of_lt_modulus_sq h
  refine ⟨toWide (fieldLimbs (f (BitVec.ofNat 512 n))), rfl, ?_⟩
  rw [toNat_toWide_fieldLimbs, hf _ (by rwa [wires]), wires]

/-- Settles O23: both requests are products of field elements, so below `P^2`. -/
theorem reducerContractSuffices : Obligations.ReducerContractSuffices := by
  intro p f hf
  refine ⟨fun a b ha hb => ?_, fun a ha => ?_⟩
  · rw [fmulRequest_eq, if_pos ⟨ha, hb⟩]
    exact reduceRule_of_reducerCorrect hf (mul_lt_modulus_sq ha hb)
  · rw [fsqrRequest_eq, if_pos ha]
    exact reduceRule_of_reducerCorrect hf (mul_lt_modulus_sq ha ha)

end Sys2Proof.Machine
end

section
/-!
PROOFS. The run of a command that waits for no reducer, from its acceptance to its completion (00_scope.md R10,
10_state.md R37 to R39, 70_reset_and_hazards.md R150).
-/

namespace Sys2Proof.Machine

/-- An edge whose listed inputs carry no reset, or that lies past the list, is no reset (R36). -/
theorem input_rst_of_forall_mem_take {s : State} {k : Nat} (h : ∀ i ∈ s.inputs.take (k + 1), i.rst = false) :
    s.input.rst = false := by
  rw [State.input]
  cases hs : s.inputs with
  | nil => rfl
  | cons i rest => exact h i (by simp [hs])

theorem State.EndsAs.phase {s t : State} (h : s.EndsAs t) : t.phase = .idle := by
  obtain ⟨r, rfl⟩ | rfl | rfl | rfl := h <;> rfl

theorem State.EndsAs.done {s t : State} (h : s.EndsAs t) : t.done = true := by
  obtain ⟨r, rfl⟩ | rfl | rfl | rfl := h <;> rfl

/-- A byte that never waits for the reducer only counts its latency down (R10, R150). -/
theorem start_of_reducerFree {op : OpByte} (h : reducerFree op) :
    Work.start op = .running (Config.latency (decodeOp op).toOption) := by
  obtain ⟨notFmul, notFsqr⟩ := h
  rw [Work.start]
  cases hk : decodeOp op with
  | error e => rfl
  | ok k =>
    cases k with
    | fmul => exact absurd hk notFmul
    | fsqr => exact absurd hk notFsqr
    | wmul | cred | fadd | fsub | fromInt | fout => rfl

/-- The command `c` is in progress, waits for no reducer, and is due at the `left`-th edge from now; `fault` is FAULT
as it stood at its acceptance, and `inputs` are still to come. -/
structure State.Running (c : Cmd) (fault : Bool) (left : Nat) (inputs : List Inputs) (s : State) : Prop where
  phase : s.phase = .busy (.running left)
  latched : s.latched = c
  valid : s.valid = false
  fault : s.fault = fault
  done : s.done = false
  redStart : s.redStart = false
  inputs : s.inputs = inputs

section
variable {s : State} {c : Cmd} {fault : Bool} {inputs : List Inputs} {n k : Nat}

/-- Acceptance starts the countdown at the latency of the command byte (R37, R150). -/
theorem accept_running (hp : s.phase = .idle) (hr : s.input.rst = false) (hv : s.input.cmdValid = true)
    (free : reducerFree s.input.cmd.op) :
    ∃ t, step s = .next t ∧
      t.Running s.input.cmd s.fault (Config.latency (decodeOp s.input.cmd.op).toOption) s.inputs.tail := by
  refine ⟨s.advance.accept s.input.cmd, ?_, ?_⟩
  · rw [step_idle hr hp, State.idleEdge, if_pos hv]
  · exact ⟨congrArg Phase.busy (start_of_reducerFree free), rfl, rfl, rfl, rfl, rfl, rfl⟩

namespace State.Running

/-- Before the last edge the countdown loses one and nothing else of the command changes (R39, R40). -/
theorem edge (h : s.Running c fault (n + 2) inputs) (hr : s.input.rst = false) :
    ∃ t, step s = .next t ∧ t.Running c fault (n + 1) inputs.tail := by
  refine ⟨s.advance.stayBusy (.running (n + 1)), ?_, ?_⟩
  · rw [step_busy hr h.phase, State.busyEdge]
  · exact ⟨rfl, h.latched, h.valid, h.fault, rfl, rfl, congrArg List.tail h.inputs⟩

/-- The last edge runs the captured command (R38). -/
theorem last_edge (h : s.Running c fault 1 inputs) (hr : s.input.rst = false) : step s = s.advance.runLatched := by
  rw [step_busy hr h.phase]
  rfl

/-- Any number of edges short of the last one only count down. -/
theorem run (h : s.Running c fault (n + k + 1) inputs) (quiet : ∀ i ∈ inputs.take k, i.rst = false) :
    ∃ t : State, Host.Core.run core k s = .next t ∧ t.Running c fault (n + 1) (inputs.drop k) := by
  induction k generalizing s inputs with
  | zero => exact ⟨s, rfl, h⟩
  | succ k ih =>
    obtain ⟨u, hu, running⟩ := edge h (input_rst_of_forall_mem_take (by rwa [h.inputs]))
    have quiet' : ∀ i ∈ inputs.tail.take k, i.rst = false := fun i hi =>
      quiet i (List.mem_of_mem_tail (by rwa [List.tail_take_eq_take_tail]))
    obtain ⟨t, ht, left⟩ := ih running quiet'
    exact ⟨t, by rw [core_run_step hu, ht], by rwa [List.drop_tail] at left⟩

/-- The whole countdown ends in the completion of the captured command, one edge after `u` (R38, R150). -/
theorem run_completes (h : s.Running c fault (n + 1) inputs) (quiet : ∀ i ∈ inputs.take (n + 1), i.rst = false) :
    ∃ u t : State, u.Running c fault 1 (inputs.drop n) ∧ u.advance.runLatched = .next t ∧ u.advance.EndsAs t ∧
      Host.Core.run core (n + 1) s = .next t := by
  have before : ∀ i ∈ inputs.take n, i.rst = false := fun i hi =>
    quiet i (List.take_subset_take_left _ n.le_succ hi)
  obtain ⟨u, hu, due⟩ := run (n := 0) (by rwa [Nat.zero_add]) before
  have last : u.input.rst = false := input_rst_of_forall_mem_take (k := 0) fun i hi =>
    quiet i (by rw [due.inputs] at hi; exact List.mem_of_mem_drop (List.take_drop ▸ hi))
  obtain ⟨t, ht, ends⟩ := runLatched_endsAs u.advance
  exact ⟨u, t, due, ht, ends, by rw [core_run_trans n 1 hu, core_run_step ((due.last_edge last).trans ht)]; rfl⟩

end State.Running
end

/-- Settles O54: acceptance, the countdown, and at its end a completion, which every outcome of a command is. -/
theorem latencyIsConstant : Obligations.LatencyIsConstant := by
  intro s i during rest idle listed notReset valid free latency quiet
  have now : s.input = i := by rw [State.input, listed, List.headD_cons]
  obtain ⟨u, hu, running⟩ := accept_running idle (by rwa [now]) (by rwa [now]) (by rwa [now])
  rw [now, listed, List.tail_cons, ← latency] at running
  have quietTake : ∀ k ≤ during.length, ∀ j ∈ (during ++ rest).take k, j.rst = false := fun k hk j hj =>
    quiet j (List.mem_of_mem_take (List.take_append_of_le_length hk ▸ hj))
  refine ⟨fun k hk => ?_, ?_⟩
  · obtain ⟨n, hn⟩ : ∃ n, during.length = n + k + 1 := ⟨during.length - k - 1, by omega⟩
    rw [hn] at running
    obtain ⟨t, ht, still⟩ := running.run (quietTake k hk.le)
    exact ⟨t, by rw [Nat.add_comm, core_run_step hu, ht], by rw [State.busy, still.phase], still.done⟩
  · obtain ⟨n, hn⟩ : ∃ n, during.length = n + 1 := ⟨_, latency⟩
    rw [hn] at running
    obtain ⟨_, t, _, _, ends, ht⟩ := running.run_completes (quietTake _ hn.ge)
    exact ⟨t, by rw [hn, Nat.add_comm, core_run_step hu, ht], by rw [State.busy, ends.phase], ends.done⟩

end Sys2Proof.Machine
end

section
/-!
PROOFS. What a completion leaves, and what an edge in BUSY leaves, said once for the statements about STATUS and the
handshake (10_state.md R24, R26, R39; 60_exceptions.md R129 to R134).
-/

namespace Sys2Proof.Machine

/-! The request and the latches are read from the captured command word alone (R27). -/

theorem request?_of_latched {s : State} {c : Cmd} {i : Instr} (hl : s.latched = c) (hd : decode c = .ok i) :
    s.request? = requestOf Config.modulus i := by
  simp only [State.request?, hl, hd]

theorem request?_of_decode_error {s : State} {e : DecodeError} (h : decode s.latched = .error e) :
    s.request? = none := by
  simp only [State.request?, h]

/-- Only FMUL and FSQR send anything to the reducer (R110). -/
theorem requestOf_eq_none {p : Modulus} {i : Instr} (hm : i.opcode ≠ .fmul) (hs : i.opcode ≠ .fsqr) :
    requestOf p i = none := by
  cases i with
  | fmul a b => exact absurd rfl hm
  | fsqr a => exact absurd rfl hs
  | wmul | cred | fadd | fsub | fromInt | fout => rfl

/-- A byte that never waits for the reducer makes no request (R110). -/
theorem request?_of_reducerFree {s : State} (h : reducerFree s.op) : s.request? = none := by
  cases hd : decode s.latched with
  | error e => exact request?_of_decode_error hd
  | ok i =>
    obtain ⟨k, hk, -, rfl⟩ := decode_eq_ok hd
    rw [request?_of_latched rfl hd]
    exact requestOf_eq_none (fun hm => h.1 (hm ▸ hk)) (fun hs => h.2 (hs ▸ hk))

theorem not_reducerFree_iff {op : OpByte} :
    ¬ reducerFree op ↔ decodeOp op = .ok .fmul ∨ decodeOp op = .ok .fsqr := by
  rw [reducerFree]
  tauto

/-- FMUL and FSQR start on the way to their request (R110, R150). -/
theorem start_of_reducer_command {op : OpByte} {k : Opcode} (h : decodeOp op = .ok k) (hk : k = .fmul ∨ k = .fsqr) :
    Work.start op = .toRequest (Config.requestCycle k) (Config.latency (some k) - Config.requestCycle k) := by
  obtain rfl | rfl := hk <;> simp only [Work.start, h, Except.toOption]

/-- At an edge for which inputs are listed, the first of them stands on the ports (R36). -/
theorem input_of_inputs_cons {s : State} {i : Inputs} {rest : List Inputs} (h : s.inputs = i :: rest) :
    s.input = i := by
  rw [State.input, h, List.headD_cons]

/-! Every completion (R129, R131 to R133). -/

section
variable {s t : State}

theorem State.EndsAs.latched (h : s.EndsAs t) : t.latched = s.latched := by
  obtain ⟨r, rfl⟩ | rfl | rfl | rfl := h <;> rfl

theorem State.EndsAs.redStart (h : s.EndsAs t) : t.redStart = s.redStart := by
  obtain ⟨r, rfl⟩ | rfl | rfl | rfl := h <;> rfl

theorem State.EndsAs.fault_kept_or_set (h : s.EndsAs t) : t.fault = s.fault ∨ t.fault = true := by
  obtain ⟨r, rfl⟩ | rfl | rfl | rfl := h
  · exact .inl rfl
  · exact .inr (Bool.or_true _)
  · exact .inl (Bool.or_false _)
  · exact .inr (Bool.or_true _)

theorem State.EndsAs.inputs (h : s.EndsAs t) : t.inputs = s.inputs := by
  obtain ⟨r, rfl⟩ | rfl | rfl | rfl := h <;> rfl

/-- VALID is 1 after OK alone (R24). -/
theorem State.EndsAs.valid_iff (h : s.EndsAs t) : t.valid = true ↔ t.code = .ok := by
  obtain ⟨r, rfl⟩ | rfl | rfl | rfl := h <;>
    simp [State.raiseContract, State.raiseOutOfRange, State.raiseIllegal]

/-- FAULT is set by CONTRACT and ILLEGAL, and left alone by OK and OUT_OF_RANGE (R26). -/
theorem State.EndsAs.fault_iff (h : s.EndsAs t) :
    t.fault = true ↔ s.fault = true ∨ t.code = .contract ∨ t.code = .illegal := by
  obtain ⟨r, rfl⟩ | rfl | rfl | rfl := h <;>
    simp [State.raiseContract, State.raiseOutOfRange, State.raiseIllegal]

end

/-- What an edge in BUSY comes to: one more edge in BUSY, at which `red_start` may rise, or a completion, of which
only the phase it finds depends on the way the command took (R39, R110). -/
theorem State.BusyTo.stays_or_ends {i : Inputs} {w : Work} {s t : State} (h : State.BusyTo i w s t) :
    (∃ w' start, t = { s.stayBusy w' with redStart := start }) ∨ ∃ p, State.EndsAs { s with phase := p } t := by
  obtain ⟨_, _, rfl⟩ | ⟨_, _, _, rfl⟩ | ⟨_, _, _, _, _, _, rfl⟩ | ⟨_, _, _, _, _, rfl⟩ | ⟨_, _, _, _, rfl⟩ |
    ⟨_, _, _, _, rfl⟩ | ⟨_, _, _, rfl⟩ | ⟨_, _, _, _, ends⟩ | ⟨_, _, _, _, _, ends⟩ | ⟨_, _, _, _, ends⟩ |
    ⟨_, _, _, _, _, ends⟩ := h
  iterate 2 exact .inl ⟨_, s.redStart, rfl⟩
  · exact .inl ⟨_, true, rfl⟩
  iterate 4 exact .inl ⟨_, s.redStart, rfl⟩
  iterate 4 exact .inr ⟨_, ends⟩

end Sys2Proof.Machine
end

section
/-!
PROOFS. The invariant of the machine: at reset, and kept by every edge (10_state.md R24, R26, R39; 44_field_mul_square.md
R110, R111).
-/

namespace Sys2Proof.Machine

/-- What the captured command word must be for a command in progress to be at the point `w` of its way (R110, R111). -/
def Work.Fits (s : State) : Work → Prop
  | .running _ => s.request? = none
  | .toRequest _ _ => ¬ reducerFree s.op
  | .asked x _ => s.request? = some x
  | .answered _ _ => s.request?.isSome = true

/-- The invariant in IDLE. -/
theorem inv_of_idle {s : State} (hp : s.phase = .idle) (start : s.redStart = false)
    (valid : s.valid = true → s.code = .ok) (fault : s.code = .contract ∨ s.code = .illegal → s.fault = true) :
    s.Inv := by
  simpa [State.Inv, hp, start] using And.intro valid fault

/-- The invariant in BUSY. -/
theorem inv_of_busy {s : State} {w : Work} (hp : s.phase = .busy w) (valid : s.valid = false)
    (done : s.done = false) (start : s.redStart = true → ∃ x after, w = .asked x after) (fits : w.Fits s) :
    s.Inv := by
  cases w <;> simp_all [State.Inv, Work.Fits, not_reducerFree_iff]

/-- What the invariant says of a command in progress. -/
theorem State.Inv.of_busy {s : State} {w : Work} (h : s.Inv) (hp : s.phase = .busy w) :
    s.valid = false ∧ w.Fits s := by
  obtain ⟨valid, -, -, -, toRequest, asked, answered, running⟩ := h
  refine ⟨by simpa [hp] using valid, ?_⟩
  cases w with
  | running left => exact running left hp
  | toRequest wait after => exact not_reducerFree_iff.2 (toRequest wait after hp)
  | asked x after => exact asked x after hp
  | answered r left => exact answered r left hp

/-- A completion reaches the invariant from any state whose `red_start` has ended. -/
theorem State.EndsAs.inv {s t : State} (h : s.EndsAs t) (start : s.redStart = false) : t.Inv :=
  inv_of_idle h.phase (h.redStart.trans start) h.valid_iff.1 fun code => h.fault_iff.2 (.inr code)

/-- An accepted byte starts on a way that fits it. -/
theorem start_fits (c : Cmd) (s : State) : (Work.start c.op).Fits (s.accept c) := by
  by_cases free : reducerFree c.op
  · rw [start_of_reducerFree free]
    exact request?_of_reducerFree free
  · obtain h | h := not_reducerFree_iff.1 free <;> rw [start_of_reducer_command h (by simp)] <;> exact free

/-- An edge in BUSY keeps the invariant of a command in progress. -/
theorem State.BusyTo.inv {i : Inputs} {w : Work} {s t : State} (h : State.BusyTo i w s t) (valid : s.valid = false)
    (done : s.done = false) (start : s.redStart = false) (fits : w.Fits s) : t.Inv := by
  have stays : ∀ w', w'.Fits s → (s.stayBusy w').Inv := fun w' fits' =>
    inv_of_busy rfl valid done (by simp [start]) (by cases w' <;> exact fits')
  obtain ⟨_, rfl, rfl⟩ | ⟨_, _, rfl, rfl⟩ | ⟨_, _, _, rfl, _, request, rfl⟩ | ⟨_, _, rfl, _, request, rfl⟩ |
    ⟨_, _, rfl, _, rfl⟩ | ⟨x, _, rfl, _, rfl⟩ | ⟨_, _, rfl, rfl⟩ | ⟨_, _, _, _, ends⟩ | ⟨_, _, _, _, _, ends⟩ |
    ⟨_, _, _, _, ends⟩ | ⟨_, _, _, _, _, ends⟩ := h
  iterate 2 exact stays _ fits
  · exact inv_of_busy rfl valid done (fun _ => ⟨_, _, rfl⟩) request
  · exact stays _ request
  · exact stays _ fits
  · exact stays _ (Option.isSome_of_eq_some fits)
  · exact stays _ fits
  iterate 4 exact ends.inv start

/-- Settles O53: the four kinds of edge of `step_cases`, the pulses having ended before each. -/
theorem stepKeepsInvariant : Obligations.StepKeepsInvariant := by
  intro s t inv h
  obtain ⟨-, rfl⟩ | ⟨-, -, -, rfl⟩ | ⟨-, idle, -, rfl⟩ | ⟨w, -, busy, edge⟩ := step_cases h
  · exact inv_of_idle rfl rfl (fun _ => rfl) (by simp)
  · exact inv_of_busy rfl rfl rfl (by simp) (start_fits _ _)
  · obtain ⟨valid, fault, -⟩ := inv
    exact inv_of_idle idle rfl (fun v => (valid v).2) (fault idle)
  · obtain ⟨valid, fits⟩ := inv.of_busy busy
    exact edge.inv valid rfl rfl (by cases w <;> exact fits)

/-- Settles O52: IDLE with VALID = 0 and CODE OK. -/
theorem invariantAtReset : Obligations.InvariantAtReset :=
  inv_of_idle rfl rfl (fun _ => rfl) (by simp [State.reset])

end Sys2Proof.Machine
end

section
/-!
PROOFS. What a command leaves when it completes, and the STATUS register it shows (10_state.md R22 to R29, R40;
60_exceptions.md R134).
-/

namespace Sys2Proof.Machine

/-! The results of four limbs (R22). -/

theorem exists_setWidth_eq_ofNat {n : Nat} (h : n < 2 ^ 256) :
    ∃ r : FieldWord, BitVec.ofNat 512 n = r.setWidth 512 := by
  refine ⟨BitVec.ofNat 256 n, BitVec.eq_of_toNat_eq ?_⟩
  simp only [BitVec.toNat_ofNat, BitVec.toNat_setWidth, Nat.mod_eq_of_lt h]

theorem toWide_fieldLimbs_eq_setWidth (x : FieldWord) : toWide (fieldLimbs x) = x.setWidth 512 := by
  rw [toWide_fieldLimbs, BitVec.ofNat_toNat]

/-- A residue modulo `P` has four limbs (R8, R22). -/
theorem exists_setWidth_eq_ofNat_mod (p : Modulus) (n : Nat) :
    ∃ r : FieldWord, BitVec.ofNat 512 (n % p.val) = r.setWidth 512 :=
  exists_setWidth_eq_ofNat ((Nat.mod_lt n (Nat.zero_lt_of_lt p.two_le)).trans p.lt)

theorem reduceRule_ok {request : Option WideWord} {f : WideWord → FieldWord} {r : WideWord}
    (h : reduceRule request f = .ok r) : ∃ x, request = some x ∧ r = (f x).setWidth 512 := by
  cases request with
  | none => cases h
  | some x =>
    injection h with h
    exact ⟨x, rfl, by rw [← h, toWide_fieldLimbs_eq_setWidth]⟩

/-- The rule of every command but WMUL completes with a value of four limbs (R22). -/
theorem ruleOf_fourLimbs {i : Instr} {s : State} {r : WideWord} (hw : i.opcode ≠ .wmul) (h : ruleOf i s = .ok r) :
    ∃ x : FieldWord, r = x.setWidth 512 := by
  cases i with
  | wmul a b => exact absurd rfl hw
  | cred a e =>
    rw [ruleOf] at h
    by_cases hv : a.toNat + 2 ^ 256 * e.toNat < 2 * Config.modulus.val
    · rw [credRule_ok _ _ _ hv, Completion.ok.injEq] at h
      exact h ▸ exists_setWidth_eq_ofNat_mod _ _
    · rw [credRule_contract _ _ _ (by omega)] at h
      cases h
  | fadd a b =>
    rw [ruleOf] at h
    by_cases hab : a.toNat < Config.modulus.val ∧ b.toNat < Config.modulus.val
    · rw [faddRule_ok _ _ _ hab.1 hab.2, Completion.ok.injEq] at h
      exact h ▸ exists_setWidth_eq_ofNat_mod _ _
    · rw [faddRule_contract _ _ _ (by omega)] at h
      cases h
  | fsub a b =>
    rw [ruleOf] at h
    by_cases hab : a.toNat < Config.modulus.val ∧ b.toNat < Config.modulus.val
    · rw [fsubRule_ok _ _ _ hab.1 hab.2, Completion.ok.injEq] at h
      exact h ▸ exists_setWidth_eq_ofNat_mod _ _
    · rw [fsubRule_contract _ _ _ (by omega)] at h
      cases h
  | fmul a b =>
    obtain ⟨x, -, hx⟩ := reduceRule_ok h
    exact ⟨_, hx⟩
  | fsqr a =>
    obtain ⟨x, -, hx⟩ := reduceRule_ok h
    exact ⟨_, hx⟩
  | fromInt n =>
    rw [ruleOf, fromRule_eq] at h
    split at h
    · rw [Completion.ok.injEq] at h
      exact h ▸ exists_setWidth_eq_ofNat n.isLt
    · cases h
  | fout a =>
    rw [ruleOf, foutRule_eq] at h
    split at h
    · rw [Completion.ok.injEq] at h
      exact h ▸ exists_setWidth_eq_ofNat a.isLt
    · cases h

/-- VALID is 1 only after the completion with a result (R24, R129). -/
theorem finish_eq_complete_of_valid {c : Completion} {s : State} (h : (s.finish c).valid = true) :
    ∃ r, c = .ok r ∧ s.finish c = s.complete r := by
  cases c with
  | ok r => exact ⟨r, rfl, rfl⟩
  | contract => cases h
  | outOfRange => cases h

/-- A command answers with the completion its rule says. -/
theorem eq_finish_of_exec {i : Instr} {s t : State} (h : exec i s = .next t) : t = s.finish (ruleOf i s) := by
  rw [exec_eq_finish] at h
  injection h with h
  exact h.symm

theorem exec_endsAs {i : Instr} {s t : State} (h : exec i s = .next t) : s.EndsAs t :=
  eq_finish_of_exec h ▸ finish_endsAs _ s

theorem endsAs_of_runLatched {s t : State} (h : s.runLatched = .next t) : s.EndsAs t := by
  obtain ⟨u, hu, ends⟩ := runLatched_endsAs s
  rw [hu] at h
  injection h with h
  exact h ▸ ends

/-- Settles O30: VALID = 1 means that the rule completed with a result, and that result has four limbs. -/
theorem fourLimbResultsZeroExtended : Obligations.FourLimbResultsZeroExtended := by
  intro i s t hw h valid
  obtain rfl := eq_finish_of_exec h
  obtain ⟨r, ok, complete⟩ := finish_eq_complete_of_valid valid
  rw [complete, State.complete_result]
  exact ruleOf_fourLimbs hw ok

/-- Settles O32: what every completion leaves unchanged. -/
theorem commandFrame : Obligations.CommandFrame := by
  intro i s t h
  have ends := exec_endsAs h
  obtain ⟨op, a, b, e⟩ := Cmd.mk.inj ends.latched
  exact ⟨op, a, b, e, ends.redStart, ends.inputs, by rw [State.redX, ends.phase], ends.fault_kept_or_set⟩

/-! The STATUS register and the reads of the host (R23, R24, R28, R29, R40). -/

theorem State.busy_iff {s : State} : s.busy = true ↔ s.phase ≠ .idle := by
  rw [State.busy]
  cases s.phase <;> simp

theorem State.busy_of_idle {s : State} (h : s.phase = .idle) : s.busy = false := by
  rw [State.busy, h]

theorem State.busy_of_busy {s : State} {w : Work} (h : s.phase = .busy w) : s.busy = true := by
  rw [State.busy, h]

/-- In IDLE the register holds FAULT, CODE and VALID (R23). -/
theorem State.status_of_idle {s : State} (h : s.phase = .idle) :
    s.status = 0#3 ++ BitVec.ofBool s.fault ++ s.code.bits ++ BitVec.ofBool s.valid := by
  rw [State.status, State.busy_of_idle h]
  rfl

/-- Settles O33: no field of the register reaches the two bits. -/
theorem reservedStatusBitsReadZero : Obligations.ReservedStatusBitsReadZero := by
  intro s
  have fields : ∀ (busy fault valid : Bool) (code : BitVec 3),
      (0#2 ++ BitVec.ofBool busy ++ BitVec.ofBool fault ++ code ++ BitVec.ofBool valid).extractLsb' 6 2 = 0#2 := by
    decide
  exact fields _ _ _ _

/-- Settles O34: bit 5 is `busy`, and each of the three events sets the phase. -/
theorem busyIsThePhase : Obligations.BusyIsThePhase := by
  refine ⟨fun s => ⟨?_, State.busy_iff⟩, rfl, fun c s => rfl, fun s t h => (endsAs_of_runLatched h).phase⟩
  have fields : ∀ (busy fault valid : Bool) (code : BitVec 3),
      (0#2 ++ BitVec.ofBool busy ++ BitVec.ofBool fault ++ code ++ BitVec.ofBool valid).getLsbD 5 = busy := by
    decide
  exact fields _ _ _ _

/-- Settles O36: the three cases of a read. -/
theorem hostReads : Obligations.HostReads := by
  intro s
  refine ⟨fun busy => ?_, fun idle valid => ?_, fun idle => ?_⟩
  · simp [State.readResult, State.readCode, State.busy_iff.2 busy]
  · simp [State.readResult, State.busy_of_idle idle, valid]
  · simp [State.readCode, State.busy_of_idle idle]

/-- Settles O35: a completion sets VALID by its CODE, and a read of RESULT in IDLE looks at VALID. -/
theorem validTracksOutcome : Obligations.ValidTracksOutcome := by
  refine ⟨fun s t h => (endsAs_of_runLatched h).valid_iff, fun c s => rfl, fun s => rfl, fun s idle valid => ?_⟩
  simp [State.readResult, State.busy_of_idle idle, valid]

/-! The register after each of the four completions (R134). -/

theorem State.status_complete (r : WideWord) (s : State) :
    (s.complete r).status = if s.fault then 0x11 else 0x01 := by
  rw [State.status_of_idle rfl, State.complete_fault, State.complete_code, State.complete_valid, Code.bits]
  cases s.fault <;> decide

theorem State.status_raise (code : Code) (setsFault : Bool) (s : State) :
    (s.raise code setsFault).status = 0#3 ++ BitVec.ofBool (s.fault || setsFault) ++ code.bits ++ 0#1 :=
  State.status_of_idle rfl

theorem State.status_raiseOutOfRange (s : State) : s.raiseOutOfRange.status = if s.fault then 0x12 else 0x02 := by
  rw [State.raiseOutOfRange, State.status_raise, Code.bits]
  cases s.fault <;> decide

theorem State.status_raiseContract (s : State) : s.raiseContract.status = 0x14 := by
  rw [State.raiseContract, State.status_raise, Bool.or_true, Code.bits]
  decide

theorem State.status_raiseIllegal (s : State) : s.raiseIllegal.status = 0x16 := by
  rw [State.raiseIllegal, State.status_raise, Bool.or_true, Code.bits]
  decide

/-- Settles O37: each completion has its own CODE, so the register of one of the four outcomes. -/
theorem statusAfterOutcome : Obligations.StatusAfterOutcome := by
  intro s t h
  obtain ⟨r, rfl⟩ | rfl | rfl | rfl := endsAs_of_runLatched h
  · exact ⟨fun _ => s.status_complete r, nofun, nofun, nofun⟩
  · exact ⟨nofun, nofun, fun _ => s.status_raiseContract, nofun⟩
  · exact ⟨nofun, fun _ => s.status_raiseOutOfRange, nofun, nofun⟩
  · exact ⟨nofun, nofun, nofun, fun _ => s.status_raiseIllegal⟩

/-- Settles O51: the reset state, field by field. -/
theorem resetState : Obligations.ResetState :=
  ⟨rfl, rfl, rfl, rfl, rfl, rfl⟩

end Sys2Proof.Machine
end

section
/-!
PROOFS. One clock edge: that it answers, what the command port can do at it, which edges run the captured command, and
what FAULT and `done` follow (10_state.md R26, R27, R37 to R39; 44_field_mul_square.md R110).
-/

namespace Sys2Proof.Machine

/-! An edge in BUSY, for each place on a command's way where it does more than count down (R39, R110). -/

section
variable {i : Inputs} {s : State} {n after : Nat} {x : WideWord} {r : FieldWord}

theorem busyEdge_running_due (h : n ≤ 1) : s.busyEdge i (.running n) = s.runLatched := by
  obtain rfl | rfl := Nat.le_one_iff_eq_zero_or_eq_one.1 h <;> rfl

theorem busyEdge_answered_due (h : n ≤ 1) : s.busyEdge i (.answered r n) = s.runLatched := by
  obtain rfl | rfl := Nat.le_one_iff_eq_zero_or_eq_one.1 h <;> rfl

theorem busyEdge_toRequest_some (h : n ≤ 1) (request : s.request? = some x) :
    s.busyEdge i (.toRequest n after) = .next (s.issue x after) := by
  obtain rfl | rfl := Nat.le_one_iff_eq_zero_or_eq_one.1 h <;> simp only [State.busyEdge, request]

theorem busyEdge_toRequest_none (h : n ≤ 1) (request : s.request? = none) :
    s.busyEdge i (.toRequest n (after + 1)) = .next (s.stayBusy (.running (after + 1))) := by
  obtain rfl | rfl := Nat.le_one_iff_eq_zero_or_eq_one.1 h <;> simp only [State.busyEdge, request]

theorem busyEdge_toRequest_due (h : n ≤ 1) (request : s.request? = none) :
    s.busyEdge i (.toRequest n 0) = s.runLatched := by
  obtain rfl | rfl := Nat.le_one_iff_eq_zero_or_eq_one.1 h <;> simp only [State.busyEdge, request]

theorem busyEdge_asked_wait (h : i.redDone = false) :
    s.busyEdge i (.asked x after) = .next (s.stayBusy (.asked x after)) := by
  simp only [State.busyEdge, h]

theorem busyEdge_asked_answer (h : i.redDone = true) :
    s.busyEdge i (.asked x (after + 1)) = .next (s.stayBusy (.answered (i.answer x) (after + 1))) := by
  simp only [State.busyEdge, h]

theorem busyEdge_asked_due (h : i.redDone = true) :
    s.busyEdge i (.asked x 0) = State.runLatched { s with phase := .busy (.answered (i.answer x) 0) } := by
  simp only [State.busyEdge, h]

end

/-- Settles O41: each of the three kinds of edge answers. -/
theorem everyEdgeAnswers : Obligations.EveryEdgeAnswers := by
  intro s
  cases hr : s.input.rst with
  | true => exact ⟨_, step_reset hr⟩
  | false =>
    cases hp : s.phase with
    | idle => exact ⟨_, step_idle hr hp⟩
    | busy w =>
      obtain ⟨t, ht, -⟩ := busyEdge_cases s.input w s.advance
      exact ⟨t, (step_busy hr hp).trans ht⟩

/-- Settles O49: no command, no reset, so the edge only ends the pulses. -/
theorem idleEdgeHolds : Obligations.IdleEdgeHolds := by
  intro s idle notReset noCommand
  rw [step_idle notReset idle, State.idleEdge, if_neg (by simp [noCommand])]
  rfl

/-! The command port (R27, R37). -/

theorem step_accept {s : State} (notReset : s.input.rst = false) (idle : s.phase = .idle)
    (valid : s.input.cmdValid = true) : step s = .next (s.advance.accept s.input.cmd) := by
  rw [step_idle notReset idle, State.idleEdge, if_pos valid]

theorem cmdReady_iff {s : State} : s.cmdReady = true ↔ s.phase = .idle ∧ s.input.rst = false := by
  simp [State.cmdReady]

/-- What the command port carries decides nothing at an edge with `cmd_ready = 0` (R37). -/
theorem edge_of_command_port {i : Inputs} {s : State} (v : Bool) (c : Cmd) (h : i.rst = true ∨ s.phase ≠ .idle) :
    s.edge { i with cmdValid := v, cmd := c } = s.edge i := by
  obtain reset | busy := h
  · simp only [State.edge, reset, if_true]
  · cases hp : s.phase with
    | idle => exact absurd hp busy
    | busy w =>
      simp only [State.edge, hp]
      rfl

theorem step_of_command_port {s : State} {i : Inputs} {rest : List Inputs} (v : Bool) (c : Cmd)
    (listed : s.inputs = i :: rest) (h : i.rst = true ∨ s.phase ≠ .idle) :
    step s = step { s with inputs := { i with cmdValid := v, cmd := c } :: rest } := by
  have same : State.advance { s with inputs := { i with cmdValid := v, cmd := c } :: rest } = s.advance := by
    simp only [State.advance, listed, List.tail_cons]
  calc step s = s.advance.edge i := by rw [step, input_of_inputs_cons listed]
    _ = s.advance.edge { i with cmdValid := v, cmd := c } := (edge_of_command_port (s := s.advance) v c h).symm
    _ = _ := by rw [step, same]; rfl

/-- Settles O42: acceptance is the edge in IDLE with a command; an edge with `cmd_ready = 0` is in BUSY or a reset. -/
theorem commandAcceptance : Obligations.CommandAcceptance := by
  refine ⟨fun s => cmdReady_iff, fun s ready valid => ?_, fun s i rest v c listed notReady => ?_⟩
  · obtain ⟨idle, notReset⟩ := cmdReady_iff.1 ready
    exact ⟨_, step_accept notReset idle valid, rfl, rfl, rfl⟩
  · refine step_of_command_port v c listed ?_
    by_contra! h
    rw [cmdReady_iff.2 ⟨h.2, by simpa [input_of_inputs_cons listed] using h.1⟩] at notReady
    cases notReady

/-- An edge in BUSY leaves the latches as they were captured (R27). -/
theorem State.BusyTo.latched {i : Inputs} {w : Work} {s t : State} (h : State.BusyTo i w s t) :
    t.latched = s.latched := by
  obtain ⟨w', start, rfl⟩ | ⟨p, ends⟩ := h.stays_or_ends
  · rfl
  · exact ends.latched

/-- Settles O43: the command port is read in IDLE alone, and the latches are written at acceptance alone. -/
theorem capturedOperandsHold : Obligations.CapturedOperandsHold := by
  intro s i rest v c listed notReset busy
  refine ⟨step_of_command_port v c listed (.inr busy), ?_⟩
  cases hp : s.phase with
  | idle => exact absurd hp busy
  | busy w =>
    obtain ⟨t, ht, edge⟩ := busyEdge_cases s.input w s.advance
    exact ⟨t, (step_busy (by rwa [input_of_inputs_cons listed]) hp).trans ht, edge.latched⟩

/-! The edges that run the captured command (R38, R39). -/

/-- Settles O39: the four places on a command's way where the coming edge is its last. -/
theorem stepRunsDecoded : Obligations.StepRunsDecoded := by
  intro s i notReset decoded
  refine ⟨?_, fun x asked answered => ?_⟩
  · have run : s.advance.runLatched = exec i s.advance := runLatched_ok decoded
    rintro (⟨left, due, busy⟩ | ⟨wait, due, busy, request⟩ | ⟨r, left, due, busy⟩)
    · rw [step_busy notReset busy, busyEdge_running_due due, run, State.advance]
    · rw [step_busy notReset busy, busyEdge_toRequest_due (s := s.advance) due request, run, State.advance]
    · rw [step_busy notReset busy, busyEdge_answered_due due, run, State.advance]
  · rw [step_busy notReset asked, busyEdge_asked_due answered]
    exact runLatched_ok decoded

theorem decode_of_decodeTableWord {nbits w : Nat} {i : Instr} (h : decodeTableWord nbits w = some i) :
    decode (tableCmd nbits w) = .ok i := by
  rw [decodeTableWord] at h
  cases hd : decode (tableCmd nbits w) with
  | error e => rw [hd] at h; cases h
  | ok j => rw [hd] at h; injection h with h; rw [h]

/-- Settles O40: the placed word is in its last core cycle, with idle inputs. -/
theorem fetchedWordRuns : Obligations.FetchedWordRuns := by
  intro s nbits w i word
  have decoded : decode (s.withFetchWord nbits w).latched = .ok i := decode_of_decodeTableWord word
  rw [(stepRunsDecoded _ i rfl decoded).1 (.inl ⟨1, le_rfl, rfl⟩)]
  rfl

/-! FAULT and `done` (R26, R39). -/

/-- Settles O48: the pulse has ended before the edge, and a completion alone raises it. -/
theorem doneMarksCompletion : Obligations.DoneMarksCompletion := by
  intro s t h
  obtain ⟨reset, rfl⟩ | ⟨-, idle, -, rfl⟩ | ⟨-, idle, -, rfl⟩ | ⟨w, notReset, busy, edge⟩ := step_cases h
  · simp [reset]
  · simp [State.busy_of_idle idle]
  · simp [State.busy_of_idle idle]
  · obtain ⟨w', start, rfl⟩ | ⟨p, ends⟩ := edge.stays_or_ends
    · simp [State.busy]
    · simp [State.busy_of_busy busy, State.busy_of_idle ends.phase, ends.done, notReset]

/-- The state with FAULT set. -/
def State.withFault (s : State) : State := { s with fault := true }

theorem finish_withFault (c : Completion) (s : State) : s.withFault.finish c = (s.finish c).withFault := by
  cases c <;> rfl

theorem ruleOf_withFault (i : Instr) (s : State) : ruleOf i s.withFault = ruleOf i s := by
  cases i <;> rfl

/-- A completion with FAULT = 1 is the one with FAULT = 0, but for FAULT (R26). -/
theorem runLatched_withFault {s t : State} (h : s.runLatched = .next t) :
    s.withFault.runLatched = .next t.withFault := by
  cases hd : decode s.latched with
  | ok i =>
    rw [runLatched_ok hd] at h
    rw [runLatched_ok (s := s.withFault) hd, exec_eq_finish, ruleOf_withFault, finish_withFault, ← eq_finish_of_exec h]
  | error e =>
    rw [runLatched_error hd] at h
    injection h with h
    rw [runLatched_error (s := s.withFault) hd, ← h]
    rfl

/-- An edge in BUSY with FAULT = 1 is the one with FAULT = 0, but for FAULT (R26). -/
theorem State.BusyTo.busyEdge_withFault {i : Inputs} {w : Work} {s t : State} (h : State.BusyTo i w s t) :
    s.withFault.busyEdge i w = .next t.withFault := by
  obtain ⟨_, rfl, rfl⟩ | ⟨_, _, rfl, rfl⟩ | ⟨_, _, _, rfl, due, request, rfl⟩ | ⟨_, _, rfl, due, request, rfl⟩ |
    ⟨_, _, rfl, wait, rfl⟩ | ⟨_, _, rfl, answer, rfl⟩ | ⟨_, _, rfl, rfl⟩ | ⟨_, rfl, due, run, _⟩ |
    ⟨_, rfl, due, request, run, _⟩ | ⟨_, rfl, answer, run, _⟩ | ⟨_, _, rfl, due, run, _⟩ := h
  · rfl
  · rfl
  · exact busyEdge_toRequest_some due request
  · exact busyEdge_toRequest_none due request
  · exact busyEdge_asked_wait wait
  · exact busyEdge_asked_answer answer
  · rfl
  · exact (busyEdge_running_due due).trans (runLatched_withFault run)
  · exact (busyEdge_toRequest_due (s := s.withFault) due request).trans (runLatched_withFault run)
  · exact (busyEdge_asked_due answer).trans (runLatched_withFault run)
  · exact (busyEdge_answered_due due).trans (runLatched_withFault run)

/-- FAULT after an edge without reset (R26). -/
theorem fault_after_edge {s t : State} (h : step s = .next t) (notReset : s.input.rst = false) :
    t.fault = true ↔ s.fault = true ∨ (t.done = true ∧ (t.code = .contract ∨ t.code = .illegal)) := by
  obtain ⟨reset, -⟩ | ⟨-, -, -, rfl⟩ | ⟨-, -, -, rfl⟩ | ⟨w, -, -, edge⟩ := step_cases h
  · rw [notReset] at reset
    cases reset
  · simp
  · simp
  · obtain ⟨w', start, rfl⟩ | ⟨p, ends⟩ := edge.stays_or_ends
    · simp
    · simp [ends.fault_iff, ends.done]

/-- An edge without reset with FAULT = 1 is the one with FAULT = 0, but for FAULT (R26). -/
theorem step_withFault {s t : State} (h : step s = .next t) (notReset : s.input.rst = false) :
    step s.withFault = .next t.withFault := by
  obtain ⟨reset, -⟩ | ⟨-, idle, valid, rfl⟩ | ⟨-, idle, valid, rfl⟩ | ⟨w, -, busy, edge⟩ := step_cases h
  · rw [notReset] at reset
    cases reset
  · exact step_accept (s := s.withFault) notReset idle valid
  · exact idleEdgeHolds s.withFault idle notReset valid
  · exact (step_busy (s := s.withFault) notReset busy).trans edge.busyEdge_withFault

/-- Settles O38: what sets FAULT, what clears it, and that it stops nothing. -/
theorem faultIsSticky : Obligations.FaultIsSticky := by
  refine ⟨fun s t => fault_after_edge, fun s t h reset => ?_, fun s t => step_withFault⟩
  rw [step_reset reset] at h
  injection h with h
  exact h ▸ rfl

end Sys2Proof.Machine
end

section
/-!
PROOFS. The handshake against the atomic view: a command that waits for no reducer leaves what its rule says (10_state.md
R38, R39; 60_exceptions.md R133, R134).
-/

namespace Sys2Proof.Machine

/-- The rule of a command that waits for no reducer reads its operands alone. -/
theorem ruleOf_congr {i : Instr} (hm : i.opcode ≠ .fmul) (hs : i.opcode ≠ .fsqr) (s t : State) :
    ruleOf i s = ruleOf i t := by
  cases i with
  | fmul a b => exact absurd rfl hm
  | fsqr a => exact absurd rfl hs
  | wmul | cred | fadd | fsub | fromInt | fout => rfl

/-- STATUS after a completion depends on the state before by FAULT alone (R134). -/
theorem status_finish_congr (c : Completion) {s t : State} (h : s.fault = t.fault) :
    (s.finish c).status = (t.finish c).status := by
  cases c with
  | ok r => simp only [State.finish, State.status_complete, h]
  | contract => simp only [State.finish, State.status_raiseContract]
  | outOfRange => simp only [State.finish, State.status_raiseOutOfRange, h]

/-- A completion that leaves VALID = 1 leaves one RESULT, whatever the state before (R129). -/
theorem result_finish_congr {c : Completion} {s : State} (t : State) (h : (s.finish c).valid = true) :
    (t.finish c).result = (s.finish c).result := by
  obtain ⟨r, rfl, -⟩ := finish_eq_complete_of_valid h
  rfl

/-- Settles O55: the countdown of `State.Running` ends in the rule of the captured word, read in another state. -/
theorem handshakeRunsCommand : Obligations.HandshakeRunsCommand := by
  intro s i during rest idle listed notReset valid free latency quiet
  have now := input_of_inputs_cons listed
  obtain ⟨u, hu, running⟩ := accept_running idle (by rwa [now]) (by rwa [now]) (by rwa [now])
  rw [now, listed, List.tail_cons, ← latency] at running
  obtain ⟨n, hn⟩ : ∃ n, during.length = n + 1 := ⟨_, latency⟩
  rw [hn] at running
  obtain ⟨v, t, due, completes, ends, ht⟩ := running.run_completes (by rwa [← hn, List.take_left])
  refine ⟨t, by rw [hn, Nat.add_comm, core_run_step hu, ht], ends.latched.trans due.latched, ends.phase, ends.done,
    ?_, fun c decoded => ⟨_, exec_eq_finish c s, ?_⟩, fun ⟨err, rejected⟩ => ?_⟩
  · rw [ends.inputs, State.advance_inputs, due.inputs, List.tail_drop, ← hn, List.drop_left]
  · obtain ⟨k, hk, -, rfl⟩ := decode_eq_ok decoded
    rw [runLatched_ok (due.latched.symm ▸ decoded)] at completes
    have same := ruleOf_congr (fun h => free.1 (h ▸ hk)) (fun h => free.2 (h ▸ hk)) v.advance s
    rw [eq_finish_of_exec completes, same]
    exact ⟨status_finish_congr _ due.fault, result_finish_congr _⟩
  · rw [runLatched_error (due.latched.symm ▸ rejected)] at completes
    injection completes with illegal
    rw [← illegal]
    exact ⟨rfl, Bool.or_true _, rfl, State.status_raiseIllegal _⟩

end Sys2Proof.Machine
end

section
/-!
PROOFS. The run of an FMUL or FSQR with valid operands: to its request, to the reducer's answer, and to its completion
(44_field_mul_square.md R110 to R113, 95_test_vectors.md section 6).
-/

namespace Sys2Proof.Machine

/-! The commands that make a request (R110, R111, R113). -/

theorem opcode_of_requestOf {p : Modulus} {i : Instr} {x : WideWord} (h : requestOf p i = some x) :
    i.opcode = .fmul ∨ i.opcode = .fsqr := by
  by_contra! other
  rw [requestOf_eq_none other.1 other.2] at h
  cases h

theorem ruleOf_of_requestOf {i : Instr} {x : WideWord} (s : State) (h : requestOf Config.modulus i = some x) :
    ruleOf i s = .ok ((s.reduce x).setWidth 512) := by
  have rule : ruleOf i s = reduceRule (requestOf Config.modulus i) s.reduce := by
    cases i with
    | fmul a b => rfl
    | fsqr a => rfl
    | wmul | cred | fadd | fsub | fromInt | fout => cases h
  rw [rule, h, reduceRule, toWide_fieldLimbs_eq_setWidth]

/-- With a sampled answer, such a command completes with it (R112, R115). -/
theorem runLatched_answered {s : State} {i : Instr} {x : WideWord} {r : FieldWord} {left : Nat}
    (answered : s.phase = .busy (.answered r left)) (decoded : decode s.latched = .ok i)
    (request : requestOf Config.modulus i = some x) : s.runLatched = .next (s.complete (r.setWidth 512)) := by
  rw [runLatched_ok decoded, exec_eq_finish, ruleOf_of_requestOf s request, State.reduce, answered]
  rfl

/-- The command `c` is in progress at the point `w` of its way; `fault` is FAULT as it stood at its acceptance, and
`inputs` are still to come. -/
structure State.Doing (c : Cmd) (fault : Bool) (w : Work) (inputs : List Inputs) (s : State) : Prop where
  phase : s.phase = .busy w
  latched : s.latched = c
  fault : s.fault = fault
  inputs : s.inputs = inputs

/-- Acceptance starts the command on the way of its byte (R37). -/
theorem accept_doing {s : State} {i : Inputs} {rest : List Inputs} (idle : s.phase = .idle)
    (listed : s.inputs = i :: rest) (notReset : i.rst = false) (valid : i.cmdValid = true) :
    ∃ t, step s = .next t ∧ t.Doing i.cmd s.fault (Work.start i.cmd.op) rest := by
  have now := input_of_inputs_cons listed
  refine ⟨_, step_accept (by rwa [now]) idle (by rwa [now]), ?_⟩
  rw [now]
  exact ⟨rfl, rfl, rfl, congrArg List.tail listed⟩

namespace State.Doing

section
variable {s : State} {c : Cmd} {fault : Bool} {i : Inputs} {rest : List Inputs} {w : Work} {x : WideWord}
  {after : Nat}

theorem step_eq (h : s.Doing c fault w (i :: rest)) (notReset : i.rst = false) :
    step s = s.advance.busyEdge i w := by
  have now := input_of_inputs_cons h.inputs
  rw [step_busy (by rwa [now]) h.phase, now]

/-- What holds at the edge itself, its inputs having moved on. -/
theorem advance (h : s.Doing c fault w (i :: rest)) : s.advance.Doing c fault w rest :=
  ⟨h.phase, h.latched, h.fault, congrArg List.tail h.inputs⟩

theorem stayBusy (h : s.Doing c fault w rest) (w' : Work) : (s.stayBusy w').Doing c fault w' rest :=
  ⟨rfl, h.latched, h.fault, h.inputs⟩

/-- Edges that each take the command from `w (k + 1)` to `w k` take it to `w 0` (R39). -/
theorem run_stays (w : Nat → Work) {passed : List Inputs} (quiet : ∀ i ∈ passed, i.rst = false)
    (stays : ∀ i ∈ passed, ∀ (k : Nat) (s : State), s.busyEdge i (w (k + 1)) = .next (s.stayBusy (w k)))
    (h : s.Doing c fault (w passed.length) (passed ++ rest)) :
    ∃ t : State, Host.Core.run core passed.length s = .next t ∧ t.Doing c fault (w 0) rest := by
  induction passed generalizing s with
  | nil => exact ⟨s, rfl, h⟩
  | cons i passed ih =>
    obtain ⟨notReset, quiet⟩ := List.forall_mem_cons.1 quiet
    obtain ⟨first, stays⟩ := List.forall_mem_cons.1 stays
    obtain ⟨t, ht, doing⟩ := ih quiet stays (h.advance.stayBusy _)
    exact ⟨t, by rw [List.length_cons, core_run_step ((h.step_eq notReset).trans (first _ _)), ht], doing⟩

/-- The core cycles up to the request, the last of which issues it (R110). -/
theorem run_request {before : List Inputs} (nonempty : before ≠ []) (quiet : ∀ i ∈ before, i.rst = false)
    (request : ∀ u : State, u.latched = c → u.request? = some x)
    (h : s.Doing c fault (.toRequest before.length after) (before ++ rest)) :
    ∃ t : State, Host.Core.run core before.length s = .next t ∧ t.Doing c fault (.asked x after) rest ∧
      t.redStart = true := by
  obtain rfl | ⟨front, last, rfl⟩ := List.eq_nil_or_concat' before
  · exact absurd rfl nonempty
  · obtain ⟨quiet, notReset⟩ := List.forall_mem_append.1 quiet
    rw [List.length_append, List.append_assoc] at h
    obtain ⟨u, hu, due⟩ := run_stays (fun k => .toRequest (k + 1) after) quiet (fun _ _ _ _ => rfl) h
    have issues := (due.step_eq (notReset last (by simp))).trans
      (busyEdge_toRequest_some le_rfl (request _ due.latched))
    refine ⟨u.advance.issue x after, ?_, ⟨rfl, due.latched, due.fault, due.advance.inputs⟩, rfl⟩
    rw [List.length_append, core_run_trans _ _ hu]
    exact core_run_step issues 0

/-- The edges without an answer, at which the request is held (R110). -/
theorem run_waiting {waiting : List Inputs} (quiet : ∀ i ∈ waiting, i.rst = false ∧ i.redDone = false)
    (h : s.Doing c fault (.asked x after) (waiting ++ rest)) :
    ∃ t : State, Host.Core.run core waiting.length s = .next t ∧ t.Doing c fault (.asked x after) rest :=
  run_stays (fun _ => .asked x after) (fun i hi => (quiet i hi).1)
    (fun i hi _ _ => busyEdge_asked_wait (quiet i hi).2) h

/-- The edge of the answer and the core cycles after it: the command completes with the sampled answer (R110, R112). -/
theorem run_answer {ans : Inputs} {later : List Inputs} {j : Instr} (notReset : ans.rst = false)
    (answer : ans.redDone = true) (quiet : ∀ i ∈ later, i.rst = false) (decoded : decode c = .ok j)
    (request : requestOf Config.modulus j = some x)
    (h : s.Doing c fault (.asked x later.length) (ans :: (later ++ rest))) :
    ∃ u : State, Host.Core.run core (1 + later.length) s = .next (u.complete ((ans.answer x).setWidth 512)) ∧
      u.fault = fault ∧ u.inputs = rest := by
  obtain rfl | ⟨front, last, rfl⟩ := List.eq_nil_or_concat' later
  · have completes := runLatched_answered (s := { s.advance with phase := .busy (.answered (ans.answer x) 0) }) rfl
      (h.latched.symm ▸ decoded) request
    exact ⟨_, core_run_step ((h.step_eq notReset).trans ((busyEdge_asked_due answer).trans completes)) 0,
      h.fault, h.advance.inputs⟩
  · obtain ⟨quiet, lastQuiet⟩ := List.forall_mem_append.1 quiet
    rw [List.length_append, List.append_assoc] at h
    have sampled := (h.step_eq notReset).trans (busyEdge_asked_answer answer)
    obtain ⟨u, hu, due⟩ := run_stays (fun k => .answered (ans.answer x) (k + 1)) quiet (fun _ _ _ _ => rfl)
      (h.advance.stayBusy _)
    have completes := (due.step_eq (lastQuiet last (by simp))).trans ((busyEdge_answered_due le_rfl).trans
      (runLatched_answered due.phase (due.latched.symm ▸ decoded) request))
    refine ⟨u.advance, ?_, due.fault, due.advance.inputs⟩
    rw [Nat.add_comm, core_run_step sampled, List.length_append, core_run_trans _ _ hu]
    exact core_run_step completes 0

end
end State.Doing

/-- Settles O56: acceptance, the core cycles up to the request, the wait, and the answer with the core cycles after. -/
theorem reducerLatencyIsAdded : Obligations.ReducerLatencyIsAdded := by
  intro s i ans before waiting later rest c x idle listed notReset valid decoded request cycle latency
    quietBefore quietWaiting notResetAns answer quietLater
  obtain ⟨k, hk, -, rfl⟩ := decode_eq_ok decoded
  have way := start_of_reducer_command hk (opcode_of_requestOf request)
  have nonempty : before ≠ [] := List.ne_nil_of_length_pos (cycle ▸ Nat.succ_pos _)
  obtain ⟨u₀, h₀, accepted⟩ := accept_doing idle listed notReset valid
  rw [way, ← cycle, ← latency, Nat.add_sub_cancel_left] at accepted
  obtain ⟨u₁, h₁, asked, start⟩ := accepted.run_request nonempty quietBefore
    fun u latched => (request?_of_latched latched decoded).trans request
  obtain ⟨u₂, h₂, held⟩ := asked.run_waiting quietWaiting
  obtain ⟨u₃, h₃, fault, inputs⟩ := held.run_answer notResetAns answer quietLater decoded request
  have requested : Host.Core.run core (1 + before.length) s = .next u₁ := by
    rw [Nat.add_comm, core_run_step h₀, h₁]
  refine ⟨⟨u₁, requested, start, by rw [State.redX, asked.phase]⟩,
    u₃.complete ((ans.answer x).setWidth 512), ?_, rfl, rfl, rfl, rfl, fault, rfl, inputs⟩
  calc Host.Core.run core (1 + Config.latency (some c.opcode) + (waiting.length + 1)) s
      = Host.Core.run core ((1 + before.length) + (waiting.length + (1 + later.length))) s := by
        rw [← latency]; congr 1; omega
    _ = .next (u₃.complete ((ans.answer x).setWidth 512)) := by
        rw [core_run_trans _ _ requested, core_run_trans _ _ h₂, h₃]

end Sys2Proof.Machine
end

section
/-!
PROOFS. Decoding and encoding: the word, its fields and the command they stand for (30_encoding.md R55 to R65).
-/

namespace Sys2Proof

/-- A word whose command byte is legal decodes to that command with the operands it reads (R58, R60). -/
theorem decode_of_decodeOp {c : Cmd} {k : Opcode} (h : decodeOp c.op = .ok k) : decode c = .ok (k.withOperands c) := by
  rw [decode, h]
  rfl

@[simp] theorem encodeCmd_op (i : Instr) : (encodeCmd i).op = i.opcode.byte := by
  cases i <;> rfl

@[simp] theorem opcode_withOperands (k : Opcode) (c : Cmd) : (k.withOperands c).opcode = k := by
  cases k <;> rfl

/-- The encoder keeps every operand that the command reads (R58). -/
@[simp] theorem withOperands_encodeCmd (i : Instr) : i.opcode.withOperands (encodeCmd i) = i := by
  cases i <;> rfl

theorem decode_encodeCmd (i : Instr) : decode (encodeCmd i) = .ok i := by
  have legal : decodeOp (encodeCmd i).op = .ok i.opcode := by rw [encodeCmd_op, decodeOp_byte]
  rw [decode_of_decodeOp legal, withOperands_encodeCmd]

/-- The fields that a command ignores are the ones that a well-formed word has zero (R58, R65). -/
theorem encodeCmd_withOperands {k : Opcode} {c : Cmd} (hop : c.op = k.byte) (hc : c.wellFormed = true) :
    encodeCmd (k.withOperands c) = c := by
  obtain ⟨op, a, b, e⟩ := c
  obtain rfl : op = k.byte := hop
  cases k with
  | wmul | fadd | fsub | fmul =>
    obtain rfl : e = 0 := by simpa [Cmd.wellFormed, Opcode.byte] using hc
    rfl
  | cred =>
    obtain rfl : b = 0 := by simpa [Cmd.wellFormed, Opcode.byte] using hc
    rfl
  | fsqr | fromInt | fout =>
    obtain ⟨rfl, rfl⟩ : b = 0 ∧ e = 0 := by simpa [Cmd.wellFormed, Opcode.byte] using hc
    rfl

/-- Settles O1: the fields survive the 584 bits, and the operands survive the fields. -/
theorem decodeOfEncode : Obligations.DecodeOfEncode := by
  intro i
  rw [decodeWord, encode, ofBits_toBits, decode_encodeCmd]

/-- Settles O2: the operands and the zeros of the ignored fields are the whole word. -/
theorem encodeOfDecode : Obligations.EncodeOfDecode := by
  intro w i wellFormed decoded
  obtain ⟨k, legal, rfl, -⟩ := decode_eq_ok decoded
  rw [encode, encodeCmd_withOperands (decodeOp_eq_ok legal) wellFormed, toBits_ofBits]

/-- Settles O3: each mnemonic has its byte, and the mnemonics have no others. -/
theorem eightCommandBytes : Obligations.EightCommandBytes := by
  refine ⟨decodeOp_byte .wmul, decodeOp_byte .cred, decodeOp_byte .fadd, decodeOp_byte .fsub, decodeOp_byte .fmul,
    decodeOp_byte .fsqr, decodeOp_byte .fromInt, decodeOp_byte .fout, fun op => ⟨fun ⟨k, hk⟩ => ?_, fun h => ?_⟩⟩
  · obtain ⟨-, low, high, -⟩ := Laws.OpByte.byte_law k
    rw [decodeOp_eq_ok hk]
    exact ⟨low, high⟩
  · have legal : ∀ op : BitVec 8, 1 ≤ op.toNat ∧ op.toNat ≤ 8 → (decodeOp op).isOk = true := by decide
    have := legal op h
    cases hk : decodeOp op with
    | ok k => exact ⟨k, rfl⟩
    | error e => rw [hk] at this; cases this

/-- The selected command, or the reason of the rejection, is that of the command byte (R60). -/
theorem decode_map_opcode (c : Cmd) : (decode c).map Instr.opcode = decodeOp c.op := by
  cases h : decodeOp c.op with
  | error e => rw [decode_eq_error h]; rfl
  | ok k => rw [decode_of_decodeOp h, Except.map, opcode_withOperands]

/-- Settles O4: both selections are those of the one command byte. -/
theorem decodeReadsOpAlone : Obligations.DecodeReadsOpAlone := by
  intro c d same
  rw [decode_map_opcode, decode_map_opcode, same]

/-- A word with the byte of a mnemonic decodes to that command with the operands it reads (R57, R58). -/
theorem decode_byte (k : Opcode) (a b : FieldWord) (e : Limb) :
    decode ⟨k.byte, a, b, e⟩ = .ok (k.withOperands ⟨k.byte, a, b, e⟩) :=
  decode_of_decodeOp (decodeOp_byte k)

/-- Settles O5: one row of the table per mnemonic. -/
theorem operandUse : Obligations.OperandUse := fun a b e =>
  ⟨⟨decode_byte .wmul a b e, rfl⟩, ⟨decode_byte .cred a b e, rfl⟩, ⟨decode_byte .fadd a b e, rfl⟩,
    ⟨decode_byte .fsub a b e, rfl⟩, ⟨decode_byte .fmul a b e, rfl⟩, ⟨decode_byte .fsqr a b e, rfl⟩,
    ⟨decode_byte .fromInt a b e, rfl⟩, ⟨decode_byte .fout a b e, rfl⟩⟩

/-- A number that is a word of 584 bits is read by the fields of that word (R55). -/
theorem decodeTableWord_of_toBits {n : Nat} {c : Cmd} (h : c.toBits.toNat = n) :
    decodeTableWord 584 n = (decode c).toOption := by
  rw [← h, decodeTableWord, tableCmd, Nat.mod_eq_of_lt c.toBits.isLt, ofNat_toNat, ofBits_toBits]

/-- Settles O6: each number is the word of its four fields, and the command byte decides what they stand for. -/
theorem listedWordsDecode : Obligations.ListedWordsDecode :=
  ⟨decodeTableWord_of_toBits (c := ⟨0x07, 7, 0, 0⟩) (by decide +kernel),
    decodeTableWord_of_toBits (c := ⟨0x03, 1, 2, 0⟩) (by decide +kernel),
    decodeTableWord_of_toBits (c := ⟨0x01, 2 ^ 128, 2 ^ 127, 0⟩) (by decide +kernel),
    decodeTableWord_of_toBits (c := ⟨0x02, 2 ^ 255, 0, 1⟩) (by decide +kernel),
    decodeTableWord_of_toBits (c := ⟨0x09, 0, 0, 0⟩) (by decide +kernel)⟩

end Sys2Proof
end

section
/-!
PROOFS. The assembler: the word of each line, the two reasons of a refusal, and what the pseudo-instructions leave
(30_encoding.md R64 to R66).
-/

namespace Sys2Proof.Machine

/-! One operand (R64). -/

@[simp] theorem fits_lit (width n : Nat) : (AsmOperand.lit n).fits width = decide (n < 2 ^ width) := rfl

theorem field_lit (p : Modulus) (s : State) (a : FieldWord) : (AsmOperand.lit a.toNat).field p s = a := by
  rw [AsmOperand.field, AsmOperand.number, BitVec.ofNat_toNat, BitVec.setWidth_eq]

/-- An operand that fits its field, and finds VALID = 1 if it is `RES`, has the value it stands for. -/
theorem operandValue_eq_number {p : Modulus} {width : Nat} {s : State} {x : AsmOperand} (fits : x.fits width = true)
    (valid : x = .res → s.valid = true) : operandValue p width s x = .next (x.number p s width) := by
  cases x with
  | lit n => rw [operandValue, if_pos (of_decide_eq_true fits), AsmOperand.number]
  | res => simp [operandValue, valid rfl, AsmOperand.number]
  | modulus => rfl

/-- An operand has no value for one of two reasons. -/
theorem operandValue_refused {p : Modulus} {width : Nat} {s : State} {x : AsmOperand} {r : Refusal}
    (h : operandValue p width s x = .refused r) :
    (r = .literalOutOfRange ∧ x.fits width = false) ∨ (r = .resWithoutValue ∧ x = .res ∧ s.valid = false) := by
  cases x with
  | lit n =>
    rw [operandValue] at h
    split at h <;> cases h
    exact .inl ⟨rfl, decide_eq_false ‹_›⟩
  | res =>
    rw [operandValue] at h
    split at h <;> cases h
    exact .inr ⟨rfl, rfl, by simpa using ‹¬ s.valid = true›⟩
  | modulus => cases h

theorem operandValue_of_not_fits (p : Modulus) {width : Nat} (s : State) {x : AsmOperand} (h : x.fits width = false) :
    operandValue p width s x = .refused .literalOutOfRange := by
  cases x with
  | lit n => rw [operandValue, if_neg (of_decide_eq_false h)]
  | res | modulus => cases h

theorem operandValue_res (p : Modulus) (width : Nat) {s : State} (h : s.valid = false) :
    operandValue p width s .res = .refused .resWithoutValue := by
  rw [operandValue, if_neg (by simp [h])]

theorem operandValue_ne_fault {p : Modulus} {width : Nat} {s : State} {x : AsmOperand} {f : Fault} :
    operandValue p width s x ≠ .fault f := by
  cases x with
  | lit n | res => rw [operandValue]; split <;> nofun
  | modulus => nofun

/-- The value of an operand that fits an A or B field has no bits above it: `P` is below `2^256` (R8). -/
theorem number_div_eq_zero {p : Modulus} {s : State} {x : AsmOperand} (fits : x.fits 256 = true) :
    x.number p s 256 / 2 ^ 256 = 0 := by
  refine Nat.div_eq_of_lt ?_
  cases x with
  | lit n => exact of_decide_eq_true fits
  | res => exact BitVec.isLt _
  | modulus => exact p.lt

/-! One line, through the command it expands into (R66). -/

/-- The operands of the command a line expands into. -/
def expandedOperands (l : AsmLine) : List AsmOperand := (expand l).2.1 :: (expand l).2.2.toList

/-- The width of the operand fields of that command. -/
def expandedWidth (l : AsmLine) : Nat := operandWidth (expand l).1

/-- The checks of a line are those of the operands it expands into. -/
theorem wellFormed_iff (l : AsmLine) :
    l.wellFormed = true ↔ ∀ x ∈ expandedOperands l, x.fits (expandedWidth l) = true := by
  cases l <;> simp [AsmLine.wellFormed, expandedOperands, expandedWidth, expand, operandWidth]

/-- An expansion adds no `RES` and drops none. -/
theorem res_mem_operands_iff (l : AsmLine) : .res ∈ l.operands ↔ .res ∈ expandedOperands l := by
  cases l <;> simp [AsmLine.operands, expandedOperands, expand]

/-- A line one of whose operands has no value is refused, for the reason of one of them. -/
theorem assemble_of_refused {p : Modulus} {s : State} {l : AsmLine} {z : AsmOperand} {r : Refusal}
    (mem : z ∈ expandedOperands l) (refused : operandValue p (expandedWidth l) s z = .refused r) :
    ∃ y ∈ expandedOperands l, ∃ q,
      operandValue p (expandedWidth l) s y = .refused q ∧ assemble p s l = .refused q := by
  rcases hl : expand l with ⟨k, x, y?⟩
  simp only [expandedOperands, expandedWidth, hl] at mem refused ⊢
  cases hx : operandValue p (operandWidth k) s x with
  | fault f => exact absurd hx operandValue_ne_fault
  | refused q => exact ⟨x, by simp, q, hx, by simp [assemble, hl, hx]⟩
  | next v =>
    have second : z ∈ y?.toList := (List.mem_cons.1 mem).resolve_left fun same => by simp [same, hx] at refused
    obtain rfl := Option.mem_toList.1 second
    exact ⟨z, mem, r, refused, by simp [assemble, hl, hx, refused]⟩

section
variable {p : Modulus} {s : State} {l : AsmLine}

/-- A line all of whose operands have values assembles to the word with these values in the fields (R65). -/
theorem assemble_eq_numbers (fits : l.wellFormed = true) (valid : .res ∈ l.operands → s.valid = true) :
    assemble p s l = .next
      { op := (expand l).1.byte
        a := BitVec.ofNat 256 ((expand l).2.1.number p s (expandedWidth l))
        b := BitVec.ofNat 256 ((expand l).2.2.elim 0 (·.number p s (expandedWidth l)))
        e := BitVec.ofNat 64 ((expand l).2.1.number p s (expandedWidth l) / 2 ^ 256) } := by
  have values : ∀ z ∈ expandedOperands l,
      operandValue p (expandedWidth l) s z = .next (z.number p s (expandedWidth l)) := fun z hz =>
    operandValue_eq_number ((wellFormed_iff l).1 fits z hz)
      fun res => valid ((res_mem_operands_iff l).2 (res ▸ hz))
  rcases hl : expand l with ⟨k, x, y?⟩
  simp only [expandedOperands, expandedWidth, hl] at values ⊢
  have first := values x (by simp)
  cases y? with
  | none => simp [assemble, hl, first]
  | some y => simp [assemble, hl, first, values y (by simp)]

/-- Operands of 256 bits fill the A and B fields and leave E zero (R58). -/
theorem assemble_eq_fields (width : expandedWidth l = 256) (fits : l.wellFormed = true)
    (valid : .res ∈ l.operands → s.valid = true) :
    assemble p s l = .next
      { op := (expand l).1.byte
        a := (expand l).2.1.field p s
        b := (expand l).2.2.elim 0 (·.field p s)
        e := 0 } := by
  have first : (expand l).2.1.fits 256 = true := width ▸ (wellFormed_iff l).1 fits _ (List.mem_cons_self ..)
  rw [assemble_eq_numbers fits valid, width, number_div_eq_zero first]
  cases (expand l).2.2 <;> rfl

/-- A line assembles to the word of its row (R58, R65, R66). -/
theorem assemble_eq_word (fits : l.wellFormed = true) (valid : .res ∈ l.operands → s.valid = true) :
    assemble p s l = .next (l.word p s) := by
  cases l with
  | cred v =>
    have cut (n : Nat) : BitVec.ofNat 256 (n % 2 ^ 256) = BitVec.ofNat 256 n :=
      BitVec.eq_of_toNat_eq (Nat.mod_mod n _)
    rw [assemble_eq_numbers fits valid, AsmLine.word, Nat.shiftRight_eq_div_pow, cut]
    rfl
  | wmul | fadd | fsub | fmul | fsqr | fromInt | fout | fneg | fdbl | fzero | fone | wsqr =>
    exact assemble_eq_fields rfl fits valid

end

/-- Settles O59: the values of the operands make the word, and an operand without a value refuses the line. -/
theorem resAndLiterals : Obligations.ResAndLiterals := by
  intro p s l
  refine ⟨assemble_eq_word, fun fits named invalid => ?_, fun misfit => ?_⟩
  · obtain ⟨y, mem, q, refused, answer⟩ :=
      assemble_of_refused ((res_mem_operands_iff l).1 named) (operandValue_res p _ invalid)
    obtain ⟨-, misfit⟩ | ⟨rfl, -⟩ := operandValue_refused refused
    · rw [(wellFormed_iff l).1 fits y mem] at misfit
      cases misfit
    · exact answer
  · obtain ⟨x, mem, misfit⟩ : ∃ x ∈ expandedOperands l, x.fits (expandedWidth l) = false := by
      simpa [← Bool.not_eq_true, wellFormed_iff] using misfit
    obtain ⟨y, mem, q, refused, answer⟩ := assemble_of_refused mem (operandValue_of_not_fits p s misfit)
    obtain ⟨rfl, -⟩ | ⟨rfl, rfl, invalid⟩ := operandValue_refused refused
    · exact .inl answer
    · exact .inr ⟨(res_mem_operands_iff l).2 mem, invalid, answer⟩

/-! What the pseudo-instructions leave (R66). -/

theorem exec_of_ruleOf_ok {i : Instr} {s : State} {r : WideWord} (h : ruleOf i s = .ok r) :
    exec i s = .next (s.complete r) := by
  rw [exec_eq_finish, h, State.finish]

/-- A residue modulo `P` fits RESULT (R8, R21). -/
theorem toNat_ofNat_mod (p : Modulus) (n : Nat) : (BitVec.ofNat 512 (n % p.val)).toNat = n % p.val := by
  have small : n % p.val < 2 ^ 256 := (Nat.mod_lt n (Nat.zero_lt_of_lt p.two_le)).trans p.lt
  rw [BitVec.toNat_ofNat, Nat.mod_eq_of_lt (lt_wider small (by decide))]

/-- The product of two operands fits RESULT (R21, R81). -/
theorem toNat_ofNat_mul (a b : FieldWord) : (BitVec.ofNat 512 (a.toNat * b.toNat)).toNat = a.toNat * b.toNat := by
  rw [BitVec.toNat_ofNat]
  exact Nat.mod_eq_of_lt ((Nat.mul_lt_mul'' a.isLt b.isLt).trans_eq (pow_add 2 256 256).symm)

/-- A line of literals that fit assembles in every state. -/
theorem assemble_literals {p : Modulus} {s : State} {l : AsmLine} {c : Cmd} (fits : l.wellFormed = true)
    (noRes : .res ∉ l.operands) (word : l.word p s = c) : assemble p s l = .next c :=
  word ▸ assemble_eq_word fits (absurd · noRes)

theorem ruleOf_fromInt_ok {n : FieldWord} (s : State) (h : n.toNat < Config.P) :
    ruleOf (.fromInt n) s = .ok (BitVec.ofNat 512 n.toNat) :=
  (fromRule_eq _ _).trans (if_pos h)

/-- Settles O60: the word of each row, the command it decodes to, and the number its rule completes with. -/
theorem pseudoInstructions : Obligations.PseudoInstructions := by
  intro s a
  have literal := field_lit Config.modulus s a
  have fits : (AsmOperand.lit a.toNat).fits 256 = true := decide_eq_true a.isLt
  have noRes : .res ∉ [AsmOperand.lit a.toNat] := by simp
  have zero_lt : (0#256).toNat < Config.P := Nat.zero_lt_of_lt Config.modulus.two_le
  have one_lt : (1#256).toNat < Config.P := Config.modulus.two_le
  refine ⟨fun canonical => ⟨?_, ?_⟩, ?_, ?_, ?_⟩
  · refine ⟨⟨0x04, 0, a, 0⟩, .fsub 0 a, _, assemble_literals fits noRes (by rw [AsmLine.word, literal]),
      decode_byte .fsub 0 a 0, exec_of_ruleOf_ok (fsubRule_ok _ 0 a zero_lt canonical), rfl, ?_⟩
    rw [State.complete_result, toNat_ofNat_mod, BitVec.ofNat_eq_ofNat, BitVec.toNat_zero, zero_add]
  · refine ⟨⟨0x03, a, a, 0⟩, .fadd a a, _, assemble_literals fits noRes (by rw [AsmLine.word, literal]),
      decode_byte .fadd a a 0, exec_of_ruleOf_ok (faddRule_ok _ a a canonical canonical), rfl, ?_⟩
    rw [State.complete_result, toNat_ofNat_mod, two_mul]
  · exact ⟨_, .fromInt 0, _, assemble_literals rfl List.not_mem_nil rfl, decode_byte .fromInt 0 0 0,
      exec_of_ruleOf_ok (ruleOf_fromInt_ok s zero_lt), rfl, rfl⟩
  · exact ⟨_, .fromInt 1, _, assemble_literals rfl List.not_mem_nil rfl, decode_byte .fromInt 1 0 0,
      exec_of_ruleOf_ok (ruleOf_fromInt_ok s one_lt), rfl, rfl⟩
  · refine ⟨⟨0x01, a, a, 0⟩, .wmul a a, _, assemble_literals fits noRes (by rw [AsmLine.word, literal]),
      decode_byte .wmul a a 0, exec_of_ruleOf_ok (wmulRule_ok a a), rfl, ?_⟩
    rw [State.complete_result, toNat_ofNat_mul]

end Sys2Proof.Machine
end

section
/-!
PROOFS. The laws of the carry and borrow chains, and the carry found by comparison (40_limb_primitives.md R73, R74,
R76).
-/

namespace Sys2Proof.Machine

/-- A remainder below `m` and a carry worth `m` make the total, so the carry says whether the total reaches `m`. -/
theorem carry_eq_true_iff {s t m : Nat} {c : Bool} (small : s < m) (total : s + c.toNat * m = t) :
    c = true ↔ m ≤ t := by
  cases c <;> simp at total ⊢ <;> omega

/-- A remainder below `m`, less a borrow worth `m`, is the difference, so the borrow says whether it is negative. -/
theorem borrow_eq_true_iff {a b d m : Nat} {bo : Bool} (small : d < m)
    (difference : (a : Int) - b = d - bo.toNat * m) : bo = true ↔ a < b := by
  cases bo <;> simp at difference ⊢ <;> omega

/-- Settles O7: the chain of limb steps is exact, and its sum limbs stay below the width. -/
theorem addLimbsLaw : Obligations.AddLimbsLaw := by
  intro xs ys same
  obtain ⟨length, total⟩ := addLimbsFrom_spec xs ys false same
  have small := val_lt (addLimbsFrom xs ys false).1
  rw [length] at small
  exact ⟨length, total, carry_eq_true_iff small total⟩

/-- Settles O8: the chain is exact up to the borrow, a multiple of the width, and its difference limbs stay below the
width. -/
theorem subLimbsLaw : Obligations.SubLimbsLaw := by
  intro xs ys same
  obtain ⟨length, difference⟩ := subLimbsFrom_spec xs ys false same
  rw [Bool.toNat_false, Nat.cast_zero, sub_zero] at difference
  have small := val_lt (subLimbsFrom xs ys false).1
  rw [length] at small
  refine ⟨length, ?_, borrow_eq_true_iff small (by exact_mod_cast difference)⟩
  rw [difference, Int.sub_mul_emod_self_right]
  exact (Int.emod_eq_of_lt (Int.natCast_nonneg _) (by exact_mod_cast small)).symm

/-- The two comparisons of R76 are one, with the operand and the carry in together. -/
theorem carryByComparison_eq_true_iff (s x : Limb) (c : Bool) :
    carryByComparison s x c = true ↔ s.toNat < x.toNat + c.toNat := by
  cases c
  · simp [carryByComparison]
  · simp [carryByComparison, BitVec.toNat_eq, Nat.le_iff_lt_or_eq]

/-- Settles O9: a sum limb that wrapped lost `2^64` and gained `y` alone over `x + cin`, so it lies below; one that did
not wrap does not. -/
theorem carryByComparisonAgrees : Obligations.CarryByComparisonAgrees := by
  intro x y c
  have total := addStep_spec x y c
  have hy := y.isLt
  rw [Bool.eq_iff_iff, carryByComparison_eq_true_iff]
  cases carry : (addStep x y c).2 with
  | false =>
    have kept : (addStep x y c).1.toNat = x.toNat + y.toNat + c.toNat := by simpa [carry] using total
    simp [kept]
  | true =>
    have wrapped : (addStep x y c).1.toNat + 2 ^ 64 = x.toNat + y.toNat + c.toNat := by simpa [carry] using total
    simp only [iff_true]
    omega

end Sys2Proof.Machine
end

section
/-!
PROOFS. The wide product, and the bound on every value sent to the reducer (41_wide_multiply.md R81 to R88;
44_field_mul_square.md R109 to R113).
-/

namespace Sys2Proof.Machine

/-- Settles O10: no pass of the algorithm drops a carry, so twice four limbs hold the whole product. -/
theorem wideMultiplyExact : Obligations.WideMultiplyExact := by
  intro xs ys hx hy
  obtain ⟨length, product⟩ := wideMultiply_spec xs ys
  exact ⟨by rw [length, hx, hy], product⟩

/-- Settles O15: the rule of WMUL has no precondition, so the command always completes with its product. -/
theorem wmulCompletes : Obligations.WmulCompletes :=
  fun a b _ => exec_of_ruleOf_ok (wmulRule_ok a b)

/-- A request is the exact product of two field elements (R111, R113). -/
theorem toNat_of_requestOf {p : Modulus} {i : Instr} {x : WideWord} (h : requestOf p i = some x) :
    ∃ a b : FieldWord, a.toNat < p.val ∧ b.toNat < p.val ∧ x.toNat = a.toNat * b.toNat := by
  cases i with
  | fmul a b =>
    rw [requestOf, fmulRequest_eq, Option.ite_none_right_eq_some, Option.some.injEq] at h
    obtain ⟨⟨ha, hb⟩, rfl⟩ := h
    exact ⟨a, b, ha, hb, toNat_ofNat_mul a b⟩
  | fsqr a =>
    rw [requestOf, fsqrRequest_eq, Option.ite_none_right_eq_some, Option.some.injEq] at h
    obtain ⟨ha, rfl⟩ := h
    exact ⟨a, a, ha, ha, toNat_ofNat_mul a a⟩
  | wmul | cred | fadd | fsub | fromInt | fout => cases h

/-- The request of the captured command is at most `(P-1)^2`, and so below `P^2` (R88). -/
theorem toNat_request?_le {s : State} {x : WideWord} (h : s.request? = some x) :
    x.toNat ≤ (Config.P - 1) ^ 2 ∧ x.toNat < Config.P ^ 2 := by
  cases decoded : decode s.latched with
  | error e => simp [request?_of_decode_error decoded] at h
  | ok i =>
    rw [request?_of_latched rfl decoded] at h
    obtain ⟨a, b, ha, hb, product⟩ := toNat_of_requestOf h
    rw [product]
    refine ⟨?_, mul_lt_modulus_sq ha hb⟩
    rw [sq]
    exact Nat.mul_le_mul (Nat.le_sub_one_of_lt ha) (Nat.le_sub_one_of_lt hb)

/-- In BUSY, `red_start` rises at the edge that issues the request of the captured command, and at no other (R110). -/
theorem State.BusyTo.issues {i : Inputs} {w : Work} {s t : State} (h : State.BusyTo i w s t)
    (before : s.redStart = false) (start : t.redStart = true) :
    ∃ x after, s.request? = some x ∧ t = s.issue x after := by
  have changed : t.redStart ≠ s.redStart := by simp [before, start]
  obtain ⟨_, _, rfl⟩ | ⟨_, _, _, rfl⟩ | ⟨_, after, x, _, _, request, rfl⟩ | ⟨_, _, _, _, _, rfl⟩ |
    ⟨_, _, _, _, rfl⟩ | ⟨_, _, _, _, rfl⟩ | ⟨_, _, _, rfl⟩ | ⟨_, _, _, _, ends⟩ | ⟨_, _, _, _, _, ends⟩ |
    ⟨_, _, _, _, ends⟩ | ⟨_, _, _, _, _, ends⟩ := h
  iterate 2 exact absurd rfl changed
  · exact ⟨x, after, request, rfl⟩
  iterate 4 exact absurd rfl changed
  iterate 4 exact absurd ends.redStart changed

/-- An edge after which `red_start` is 1 is one that issues the request of the captured command (R110). -/
theorem issue_of_step_redStart {s t : State} (h : step s = .next t) (start : t.redStart = true) :
    ∃ x after, s.request? = some x ∧ t = s.advance.issue x after := by
  obtain ⟨-, rfl⟩ | ⟨-, -, -, rfl⟩ | ⟨-, -, -, rfl⟩ | ⟨w, -, -, edge⟩ := step_cases h
  · simp at start
  · simp at start
  · simp at start
  · exact edge.issues rfl start

/-- Settles O50: the edge that raises `red_start` holds the request of the captured command on `red_x`. -/
theorem requestsAreBelowSquare : Obligations.RequestsAreBelowSquare := by
  intro s t h start
  obtain ⟨x, after, request, rfl⟩ := issue_of_step_redStart h start
  exact ⟨x, rfl, toNat_request?_le request⟩

end Sys2Proof.Machine
end

section
/-!
PROOFS. Timing is a function of the control inputs (42_conditional_reduce.md R95; 70_reset_and_hazards.md R150): the
phase after an edge of a command that waits for no reducer is computed here from the phase before it, reset,
`cmd_valid` and the command byte, and from nothing else.
-/

namespace Sys2Proof.Machine

/-- The core is idle, or counts down a command that waits for no reducer. -/
def Phase.NeedsNoReducer (p : Phase) : Prop := p = .idle ∨ ∃ left, p = .busy (.running left)

/-- The phase after an edge, for a phase that needs no reducer (R10, R37, R39, R136). -/
def Phase.afterEdge (i : Inputs) (p : Phase) : Phase :=
  if i.rst then .idle
  else match p with
    | .idle => if i.cmdValid then .busy (Work.start i.cmd.op) else .idle
    | .busy (.running (n + 2)) => .busy (.running (n + 1))
    | .busy _ => .idle

theorem Phase.afterEdge_congr {i j : Inputs} (same : i.sameControl j) (p : Phase) : p.afterEdge i = p.afterEdge j := by
  obtain ⟨rst, cmdValid, op, -⟩ := same
  simp only [Phase.afterEdge, rst, cmdValid, op]

theorem Phase.afterEdge_of_reset {i : Inputs} (reset : i.rst = true) (p : Phase) : p.afterEdge i = .idle :=
  if_pos reset

/-- A count of at most one is a completion edge. -/
theorem Phase.afterEdge_running_due {i : Inputs} {n : Nat} (h : n ≤ 1) :
    (Phase.busy (.running n)).afterEdge i = .idle := by
  obtain rfl | rfl := Nat.le_one_iff_eq_zero_or_eq_one.1 h <;> exact ite_self _

theorem le_one_or_eq_add_two (n : Nat) : n ≤ 1 ∨ ∃ m, n = m + 2 :=
  (Nat.lt_or_ge n 2).imp Nat.le_of_lt_succ Nat.exists_eq_add_of_le'

/-- A presented command that waits for no reducer is the only way out of IDLE, and a count only goes down. -/
theorem Phase.NeedsNoReducer.afterEdge {p : Phase} (h : p.NeedsNoReducer) {i : Inputs}
    (free : i.cmdValid = true → reducerFree i.cmd.op) : (p.afterEdge i).NeedsNoReducer := by
  cases reset : i.rst with
  | true => exact .inl (Phase.afterEdge_of_reset reset p)
  | false =>
    obtain rfl | ⟨left, rfl⟩ := h
    · cases valid : i.cmdValid with
      | true =>
        exact .inr ⟨_, by simp only [Phase.afterEdge, reset, valid, start_of_reducerFree (free valid)]; rfl⟩
      | false => exact .inl (by simp [Phase.afterEdge, reset, valid])
    · obtain due | ⟨n, rfl⟩ := le_one_or_eq_add_two left
      · exact .inl (Phase.afterEdge_running_due due)
      · exact .inr ⟨n + 1, by simp [Phase.afterEdge, reset]⟩

/-- `Phase.afterEdge` is what the step does to such a phase, whatever the state holds besides. -/
theorem phase_of_step {s t : State} (h : step s = .next t) (simple : s.phase.NeedsNoReducer) :
    t.phase = s.phase.afterEdge s.input := by
  obtain ⟨reset, rfl⟩ | ⟨notReset, idle, valid, rfl⟩ | ⟨notReset, idle, noCommand, rfl⟩ | ⟨w, notReset, busy, -⟩ :=
    step_cases h
  · exact (Phase.afterEdge_of_reset reset _).symm
  · simp [Phase.afterEdge, notReset, idle, valid]
  · simp [Phase.afterEdge, notReset, idle, noCommand]
  · obtain idle | ⟨left, running⟩ := simple
    · simp [idle] at busy
    · rw [step_busy notReset running] at h
      rw [running]
      obtain due | ⟨n, rfl⟩ := le_one_or_eq_add_two left
      · rw [busyEdge_running_due due] at h
        rw [Phase.afterEdge_running_due due, (endsAs_of_runLatched h).phase]
      · injection h with h
        simp [← h, Phase.afterEdge, notReset]

/-- Every edge takes one input vector off the list. -/
theorem inputs_of_step {s t : State} (h : step s = .next t) : t.inputs = s.inputs.tail := by
  obtain ⟨-, rfl⟩ | ⟨-, -, -, rfl⟩ | ⟨-, -, -, rfl⟩ | ⟨w, -, -, edge⟩ := step_cases h
  iterate 3 rfl
  · obtain ⟨w', start, rfl⟩ | ⟨p, ends⟩ := edge.stays_or_ends
    · rfl
    · exact ends.inputs

/-- The two lists of inputs agree at the coming edge too when they have run out. -/
theorem sameControl_input {s s' : State} (h : List.Forall₂ Inputs.sameControl s.inputs s'.inputs) :
    s.input.sameControl s'.input := by
  rw [State.input, State.input]
  generalize s.inputs = l, s'.inputs = l' at h
  cases h with
  | nil => exact ⟨rfl, rfl, rfl, rfl⟩
  | cons head _ => exact head

theorem reducerFree_input {s : State} (h : ∀ i ∈ s.inputs, i.cmdValid = true → reducerFree i.cmd.op) :
    s.input.cmdValid = true → reducerFree s.input.cmd.op := by
  rw [State.input]
  cases hs : s.inputs with
  | nil => exact nofun
  | cons i rest => exact h i (by simp [hs])

/-- Two runs in step are in the same phase, one that needs no reducer. -/
theorem sameTiming_iff {s s' : State} : sameTiming s s' ↔
    (s.phase = s'.phase ∧ s.phase.NeedsNoReducer) ∧ s.done = s'.done ∧
    List.Forall₂ Inputs.sameControl s.inputs s'.inputs ∧ ∀ i ∈ s.inputs, i.cmdValid = true → reducerFree i.cmd.op := by
  refine and_congr_left fun _ => ⟨?_, ?_⟩
  · rintro (⟨idle, idle'⟩ | ⟨left, running, running'⟩)
    · exact ⟨idle.trans idle'.symm, .inl idle⟩
    · exact ⟨running.trans running'.symm, .inr ⟨left, running⟩⟩
  · rintro ⟨same, idle | ⟨left, running⟩⟩
    · exact .inl ⟨idle, same ▸ idle⟩
    · exact .inr ⟨left, running, same ▸ running⟩

theorem State.busy_congr {s s' : State} (h : s.phase = s'.phase) : s.busy = s'.busy := by
  rw [State.busy, State.busy, h]

/-- `done` follows the phases around an edge and reset, so it tells two runs apart no more than these do. -/
theorem done_congr {s s' t t' : State} (hs : step s = .next t) (hs' : step s' = .next t')
    (before : s.phase = s'.phase) (after : t.phase = t'.phase) (rst : s.input.rst = s'.input.rst) :
    t.done = t'.done := by
  rw [Bool.eq_iff_iff, doneMarksCompletion s t hs, doneMarksCompletion s' t' hs', State.busy_congr before,
    State.busy_congr after, rst]

/-- Settles O58: both phases go on by the one function `Phase.afterEdge` of equal arguments. -/
theorem timingIsDataIndependent : Obligations.TimingIsDataIndependent := by
  intro s s' t t' same hs hs'
  obtain ⟨⟨phase, simple⟩, -, inputs, free⟩ := sameTiming_iff.1 same
  have control := sameControl_input inputs
  have after : t.phase = s.phase.afterEdge s.input := phase_of_step hs simple
  have phase' : t.phase = t'.phase := by
    rw [after, phase_of_step hs' (phase ▸ simple), ← phase, Phase.afterEdge_congr control]
  have simple' : t.phase.NeedsNoReducer := after ▸ simple.afterEdge (reducerFree_input free)
  have done' : t.done = t'.done := done_congr hs hs' phase phase' control.1
  refine ⟨sameTiming_iff.2 ⟨⟨phase', simple'⟩, done', ?_, ?_⟩, done', State.busy_congr phase'⟩
  · rw [inputs_of_step hs, inputs_of_step hs', ← List.drop_one, ← List.drop_one]
    exact List.forall₂_drop 1 inputs
  · rw [inputs_of_step hs]
    exact fun i mem => free i (List.mem_of_mem_tail mem)

end Sys2Proof.Machine
end

section
/-!
PROOFS. The conditional reduction and CRED, and that no command but WMUL and those of the reducer leaves a value of `P`
or above (42_conditional_reduce.md R91 to R97; 43_field_add_sub.md R98 to R104; 45_conversion.md R119, R122).
-/

namespace Sys2Proof.Machine

/-! The subtraction of CondReduce5 (R93, R94). -/

/-- Settles O11: the borrow law, with the value of the zero-extended modulus. -/
theorem borrowSaysBelowModulus : Obligations.BorrowSaysBelowModulus := by
  intro p v length
  rw [(subLimbsLaw v (modulusLimbs5 p) (by simp [length])).2.2, val_modulusLimbs5]

/-- A vector whose value fits one limb less has a zero on top (R13). -/
theorem drop_eq_zero_of_val_lt {n : Nat} {ls : List Limb} (length : ls.length = n + 1) (h : val ls < 2 ^ (64 * n)) :
    ls.drop n = [0] := by
  obtain ⟨top, htop⟩ : ∃ top, ls.drop n = [top] := List.length_eq_one_iff.1 (by simp [length])
  have split : val ls = val (ls.take n) + 2 ^ (64 * n) * top.toNat := by
    conv_lhs => rw [← List.take_append_drop n ls]
    rw [val_append, htop, List.length_take_of_le (by omega), val_cons, val_nil, mul_zero, add_zero]
  have zero : top.toNat < 1 := Nat.lt_of_mul_lt_mul_left (a := 2 ^ (64 * n)) (by omega)
  rw [htop, BitVec.eq_of_toNat_eq (y := 0) (Nat.lt_one_iff.1 zero)]

/-- Settles O12: without a borrow the difference is `v - P < P`, with one `v < P`, and `P` has four limbs. -/
theorem discardedLimbsAreZero : Obligations.DiscardedLimbsAreZero := by
  intro p v length hv
  have fourLimbs : p.val < 2 ^ (64 * 4) := p.lt
  have same : v.length = (modulusLimbs5 p).length := by simp [length]
  refine ⟨fun noBorrow => ?_, fun borrow => ?_⟩
  · obtain ⟨lengthDiff, difference⟩ := subLimbsFrom_spec v (modulusLimbs5 p) false same
    rw [← subLimbs, noBorrow, val_modulusLimbs5, Bool.toNat_false, Nat.cast_zero, zero_mul, sub_zero, sub_zero]
      at difference
    exact drop_eq_zero_of_val_lt (lengthDiff.trans length) (by omega)
  · have below : val v < p.val := (borrowSaysBelowModulus p v length).1 borrow
    exact drop_eq_zero_of_val_lt length (below.trans fourLimbs)

/-! CRED (R91, R96). -/

/-- Settles O16: below `2P` the rule of CRED completes with the residue. -/
theorem credCompletes : Obligations.CredCompletes :=
  fun a e _ h => exec_of_ruleOf_ok (credRule_ok Config.modulus a e h)

/-- Settles O13: the two branches of the datapath, and the residue that CRED completes with. -/
theorem conditionalReduceCorrect : Obligations.ConditionalReduceCorrect := by
  refine ⟨fun p v length => ⟨fun above hv => ?_, fun below => ?_⟩, fun a e s h => ?_⟩
  · rw [(condReduce5_spec p v length hv).2, if_neg (Nat.not_lt.2 above)]
  · rw [(condReduce5_spec p v length (by omega)).2, if_pos below]
  · refine ⟨_, credCompletes a e s h, toNat_ofNat_mod _ _, ?_⟩
    rw [toNat_ofNat_mod]
    exact Nat.mod_lt _ (Nat.zero_lt_of_lt Config.modulus.two_le)

/-! Closure (R97, R100, R104, R119, R122). -/

theorem toNat_lt_of_ok {n m : Nat} {r : WideWord} (h : n < m) (ok : Completion.ok (BitVec.ofNat 512 n) = .ok r) :
    r.toNat < m := by
  obtain rfl := Completion.ok.inj ok
  exact (BitVec.toNat_ofNat n 512 ▸ Nat.mod_le n _).trans_lt h

/-- A rule that completes with a residue or breaks its contract has only results below `P`. -/
theorem toNat_lt_of_residue_or_contract {p : Modulus} {c : Completion} {n : Nat} {r : WideWord}
    (h : c = .ok (BitVec.ofNat 512 (n % p.val)) ∨ c = .contract) (ok : c = .ok r) : r.toNat < p.val := by
  obtain rfl | rfl := h
  · exact toNat_lt_of_ok (Nat.mod_lt n (Nat.zero_lt_of_lt p.two_le)) ok
  · cases ok

theorem canonical_or_violates (p : Modulus) (a b : FieldWord) :
    (a.toNat < p.val ∧ b.toNat < p.val) ∨ (p.val ≤ a.toNat ∨ p.val ≤ b.toNat) := by
  omega

/-- The rules of CRED, FADD, FSUB, FROM and FOUT complete with field elements only. -/
theorem ruleOf_lt_modulus {i : Instr} {s : State} {r : WideWord} (hw : i.opcode ≠ .wmul) (hm : i.opcode ≠ .fmul)
    (hs : i.opcode ≠ .fsqr) (ok : ruleOf i s = .ok r) : r.toNat < Config.P := by
  cases i with
  | wmul a b => exact absurd rfl hw
  | fmul a b => exact absurd rfl hm
  | fsqr a => exact absurd rfl hs
  | cred a e =>
    exact toNat_lt_of_residue_or_contract
      ((Nat.lt_or_ge _ _).imp (credRule_ok Config.modulus a e) (credRule_contract _ a e)) ok
  | fadd a b =>
    exact toNat_lt_of_residue_or_contract
      ((canonical_or_violates Config.modulus a b).imp (and_imp.2 (faddRule_ok _ a b)) (faddRule_contract _ a b)) ok
  | fsub a b =>
    exact toNat_lt_of_residue_or_contract
      ((canonical_or_violates Config.modulus a b).imp (and_imp.2 (fsubRule_ok _ a b)) (fsubRule_contract _ a b)) ok
  | fromInt n =>
    rw [ruleOf, fromRule_eq] at ok
    split at ok
    · exact toNat_lt_of_ok ‹_› ok
    · cases ok
  | fout a =>
    rw [ruleOf, foutRule_eq] at ok
    split at ok
    · exact toNat_lt_of_ok ‹_› ok
    · cases ok

/-- Settles O31: VALID = 1 means that the rule completed with a result, and that result is below `P`. -/
theorem fieldClosure : Obligations.FieldClosure := by
  intro i s t hw hm hs h valid
  obtain rfl := eq_finish_of_exec h
  obtain ⟨r, ok, complete⟩ := finish_eq_complete_of_valid valid
  rw [complete, State.complete_result]
  exact ruleOf_lt_modulus hw hm hs ok

end Sys2Proof.Machine
end

section
/-!
PROOFS. FADD and FSUB, and the two forms of the modular subtraction (43_field_add_sub.md R98 to R103).
-/

namespace Sys2Proof.Machine

/-! Chains that neither carry nor borrow out (R73, R74). -/

theorem addLimbs_of_lt {xs ys : List Limb} (same : xs.length = ys.length)
    (fits : val xs + val ys < 2 ^ (64 * xs.length)) :
    (addLimbs xs ys).1.length = xs.length ∧ val (addLimbs xs ys).1 = val xs + val ys := by
  obtain ⟨length, total, carry⟩ := addLimbsLaw xs ys same
  have noCarry : (addLimbs xs ys).2 = false := Bool.eq_false_iff.2 (carry.not.2 (Nat.not_le.2 fits))
  exact ⟨length, by simpa [noCarry] using total⟩

theorem subLimbs_of_le {xs ys : List Limb} (same : xs.length = ys.length) (le : val ys ≤ val xs) :
    (subLimbs xs ys).1.length = xs.length ∧ val (subLimbs xs ys).1 = val xs - val ys := by
  obtain ⟨length, difference, -⟩ := subLimbsLaw xs ys same
  have small : val xs - val ys < 2 ^ (64 * xs.length) := (Nat.sub_le _ _).trans_lt (val_lt xs)
  rw [← Nat.cast_sub le] at difference
  exact ⟨length, Nat.mod_eq_of_lt small ▸ by exact_mod_cast difference⟩

/-! The subtraction (R101 to R103). -/

/-- Below `2P`, at most one subtraction of `P` away from the residue, the conditional reduction reaches it (R96). -/
theorem val_condReduce5_eq_mod (p : Modulus) {v : List Limb} (length : v.length = 5) (hv : val v < 2 * p.val) :
    val (condReduce5 p v) = val v % p.val := by
  rw [(condReduce5_spec p v length hv).2]
  split
  · exact (Nat.mod_eq_of_lt ‹_›).symm
  · rw [Nat.mod_eq_sub_mod (by omega), Nat.mod_eq_of_lt (by omega)]

/-- An operand widened to five limbs keeps its value (R59). -/
theorem val_credLimbs_zero (a : FieldWord) : val (credLimbs a 0) = a.toNat := by simp

/-- With `P` added first, five limbs hold the sum and the subtraction cannot borrow, so the reduction gets
`a + P - b < 2P` (R103). -/
theorem subCorrectBefore_spec (p : Modulus) (a b : FieldWord) (ha : a.toNat < p.val) (hb : b.toNat < p.val) :
    val (subCorrectBefore p a b) = (a.toNat + p.val - b.toNat) % p.val := by
  have fits : a.toNat + p.val < 2 ^ (64 * 5) := by have := p.lt; omega
  obtain ⟨sumLength, sum⟩ := addLimbs_of_lt (xs := credLimbs a 0) (ys := modulusLimbs5 p) (by simp)
    (by rwa [val_credLimbs_zero, val_modulusLimbs5, length_credLimbs])
  rw [val_credLimbs_zero, val_modulusLimbs5] at sum
  rw [length_credLimbs] at sumLength
  obtain ⟨length, difference⟩ := subLimbs_of_le (ys := credLimbs b 0) (sumLength.trans (length_credLimbs b 0).symm)
    (by rw [sum, val_credLimbs_zero]; omega)
  rw [sum, val_credLimbs_zero] at difference
  rw [subCorrectBefore, val_condReduce5_eq_mod p (length.trans sumLength) (by omega), difference]

/-- Settles O14: both forms have the residue of `a + P - b`. -/
theorem subtractionFormsAgree : Obligations.SubtractionFormsAgree := fun p a b ha hb =>
  (subCorrectBefore_spec p a b ha hb).trans (subCorrect_spec p a b ha hb).symm

/-- The residue FSUB computes without going below 0 is that of the integer difference (R102). -/
theorem toNat_sub_emod {a b m : Nat} (h : b ≤ m) : (((a : Int) - b) % m).toNat = (a + m - b) % m := by
  rw [← Int.add_emod_right, sub_add_eq_add_sub, ← Nat.cast_add, ← Nat.cast_sub (by omega), ← Int.natCast_mod,
    Int.toNat_natCast]

/-! The commands (R98, R101, R129). -/

/-- Settles O17: for two field elements the rule of FADD completes with the residue of their sum. -/
theorem faddCompletes : Obligations.FaddCompletes :=
  fun a b _ ha hb => exec_of_ruleOf_ok (faddRule_ok Config.modulus a b ha hb)

/-- Settles O18: for two field elements the rule of FSUB completes with the residue of their difference. -/
theorem fsubCompletes : Obligations.FsubCompletes := by
  intro a b s ha hb
  rw [toNat_sub_emod hb.le]
  exact exec_of_ruleOf_ok (fsubRule_ok Config.modulus a b ha hb)

end Sys2Proof.Machine
end

section
/-!
PROOFS. FMUL and FSQR with operands that meet their precondition: what the reducer's answer becomes, and FSQR as the
FMUL of a value with itself (44_field_mul_square.md R108 to R115).
-/

namespace Sys2Proof.Machine

/-! The requests of two field elements, and of one (R111, R113). -/

theorem requestOf_fmul {p : Modulus} {a b : FieldWord} (ha : a.toNat < p.val) (hb : b.toNat < p.val) :
    requestOf p (.fmul a b) = some (BitVec.ofNat 512 (a.toNat * b.toNat)) := by
  rw [requestOf, fmulRequest_eq, if_pos ⟨ha, hb⟩]

theorem requestOf_fsqr {p : Modulus} {a : FieldWord} (ha : a.toNat < p.val) :
    requestOf p (.fsqr a) = some (BitVec.ofNat 512 (a.toNat * a.toNat)) := by
  rw [requestOf, fsqrRequest_eq, if_pos ha]

/-- A command that makes a request completes with the reducer's answer to it, zero-extended (R112, R115). -/
theorem exec_of_requestOf {i : Instr} {x : WideWord} (s : State) (h : requestOf Config.modulus i = some x) :
    exec i s = .next (s.complete ((s.reduce x).setWidth 512)) :=
  exec_of_ruleOf_ok (ruleOf_of_requestOf s h)

/-- Settles O19: for two field elements the request is their product. -/
theorem fmulCompletes : Obligations.FmulCompletes :=
  fun _ _ s ha hb => exec_of_requestOf s (requestOf_fmul ha hb)

/-- Settles O20: for a field element the request is its square. -/
theorem fsqrCompletes : Obligations.FsqrCompletes :=
  fun _ s ha => exec_of_requestOf s (requestOf_fsqr ha)

/-- An answer that is the residue of the request is RESULT, below `P` (R109). -/
theorem exec_of_reduce_eq_residue {i : Instr} {x : WideWord} {s : State} {n : Nat}
    (request : requestOf Config.modulus i = some x) (residue : (s.reduce x).toNat = n % Config.P) :
    ∃ t, exec i s = .next t ∧ t.result.toNat = n % Config.P ∧ t.result.toNat < Config.P := by
  have result : ((s.reduce x).setWidth 512).toNat = n % Config.P := by
    rw [BitVec.toNat_setWidth_of_le (by decide), residue]
  refine ⟨_, exec_of_requestOf s request, result, ?_⟩
  rw [State.complete_result, result]
  exact Nat.mod_lt n (Nat.zero_lt_of_lt Config.modulus.two_le)

/-- Settles O24: both requests are answered with their residues. -/
theorem reducedProductIsResidue : Obligations.ReducedProductIsResidue :=
  ⟨fun _ _ _ ha hb => exec_of_reduce_eq_residue (requestOf_fmul ha hb),
    fun _ _ ha => exec_of_reduce_eq_residue (requestOf_fsqr ha)⟩

/-- Both commands ask for the one product of a value with itself, under the one condition on it (R89, R113). -/
theorem fsqrRequest_eq_fmulRequest (p : Modulus) (a : FieldWord) : fsqrRequest p a = fmulRequest p a a := by
  rw [fsqrRequest, fmulRequest, Bool.and_self]

/-- Settles O25: the two commands make the same request, or neither makes one. -/
theorem squareIsProductWithItself : Obligations.SquareIsProductWithItself := by
  intro a s
  rw [exec_eq_finish, exec_eq_finish, ruleOf, ruleOf, fsqrRequest_eq_fmulRequest]

end Sys2Proof.Machine
end

section
/-!
PROOFS. The reducer port: which edges read it, and how long a request stands on it (44_field_mul_square.md R110;
70_reset_and_hazards.md R153).
-/

namespace Sys2Proof.Machine

section
variable {s t : State} {i : Inputs} {x : WideWord} {after : Nat}

theorem State.exists_asked_of_redX (h : s.redX = some x) : ∃ after, s.phase = .busy (.asked x after) := by
  rw [State.redX] at h
  split at h
  · obtain rfl := Option.some.inj h
    exact ⟨_, ‹_›⟩
  · cases h

theorem State.redX_eq_none_iff : s.redX = none ↔ ∀ x after, s.phase ≠ .busy (.asked x after) := by
  rw [State.redX]
  split
  next x after asked => simp [asked]
  next notAsked => exact ⟨fun _ => notAsked, fun _ => rfl⟩

/-- In BUSY the inputs are read by a command that waits for an answer, and by no other (R39, R110). -/
theorem busyEdge_eq_of_not_asked (i j : Inputs) {w : Work} (h : ∀ x after, w ≠ .asked x after) :
    s.busyEdge i w = s.busyEdge j w := by
  cases w with
  | asked x after => exact absurd rfl (h x after)
  | running left | answered _ left => obtain _ | _ | left := left <;> rfl
  | toRequest wait after => obtain _ | _ | wait := wait <;> rfl

/-- What the reducer drives decides nothing at an edge without an outstanding request (R110). -/
theorem edge_of_reducer_port (d : Bool) (r : Option FieldWord) (h : s.redX = none) :
    s.edge { i with redDone := d, redR := r } = s.edge i := by
  cases hp : s.phase with
  | idle =>
    simp only [State.edge, hp]
    rfl
  | busy w =>
    have notAsked : ∀ x after, w ≠ .asked x after := fun x after asked =>
      State.redX_eq_none_iff.1 h x after (asked ▸ hp)
    simp only [State.edge, hp, busyEdge_eq_of_not_asked { i with redDone := d, redR := r } i notAsked]

/-- The coming inputs reach the step through its edge alone. -/
theorem step_of_edge_eq {j : Inputs} {rest : List Inputs} (listed : s.inputs = i :: rest)
    (same : s.advance.edge i = s.advance.edge j) : step s = step { s with inputs := j :: rest } := by
  have advanced : State.advance { s with inputs := j :: rest } = s.advance := by
    simp only [State.advance, listed, List.tail_cons]
  rw [step, step, input_of_inputs_cons listed, advanced, same]
  rfl

/-- Settles O46: the edge does not read the reducer port. -/
theorem strayAnswerIgnored : Obligations.StrayAnswerIgnored := fun s _ _ d r listed noRequest =>
  step_of_edge_eq listed (edge_of_reducer_port (s := s.advance) d r noRequest).symm

/-- No edge issues a request while one is outstanding (R110). -/
theorem redStart_of_step_asked (asked : s.phase = .busy (.asked x after)) (h : step s = .next t) :
    t.redStart = false := by
  cases reset : s.input.rst with
  | true =>
    rw [step_reset reset] at h
    injection h with h
    exact h ▸ rfl
  | false =>
    rw [step_busy reset asked] at h
    cases answer : s.input.redDone with
    | false =>
      rw [busyEdge_asked_wait answer] at h
      injection h with h
      exact h ▸ rfl
    | true =>
      cases after with
      | zero =>
        rw [busyEdge_asked_due answer] at h
        exact (endsAs_of_runLatched h).redStart
      | succ after =>
        rw [busyEdge_asked_answer answer] at h
        injection h with h
        exact h ▸ rfl

end

/-- Settles O47: an edge without an answer only waits, and a request is issued where none is outstanding. -/
theorem requestIsHeld : Obligations.RequestIsHeld := by
  refine ⟨fun s x request notReset noAnswer => ?_, fun s t h start => ⟨?_, ?_⟩⟩
  · obtain ⟨after, asked⟩ := State.exists_asked_of_redX request
    exact ⟨_, (step_busy notReset asked).trans (busyEdge_asked_wait noAnswer), rfl, rfl⟩
  · refine State.redX_eq_none_iff.2 fun x after asked => ?_
    rw [redStart_of_step_asked asked h] at start
    cases start
  · obtain ⟨x, after, -, rfl⟩ := issue_of_step_redStart h start
    exact ⟨x, rfl⟩

end Sys2Proof.Machine
end

section
/-!
PROOFS. The run of an FMUL or FSQR that breaks its precondition: its core cycles, with none spent on a request, and
CONTRACT (44_field_mul_square.md R111, R113; 60_exceptions.md R131; 70_reset_and_hazards.md R150).
-/

namespace Sys2Proof.Machine

/-- A command that breaks its precondition makes no request (R110, R111, R113). -/
theorem requestOf_of_violates {p : Modulus} {i : Instr} (h : violatesPrecondition p i) : requestOf p i = none := by
  cases i with
  | fmul a b =>
    rw [violatesPrecondition] at h
    rw [requestOf, fmulRequest_eq, if_neg (by omega)]
  | fsqr a => rw [requestOf, fsqrRequest_eq, if_neg (Nat.not_lt.2 h)]
  | wmul | cred | fadd | fsub | fromInt | fout => rfl

/-- An FMUL or FSQR without a request ends in CONTRACT (R111, R113, R131). -/
theorem exec_of_requestOf_none {i : Instr} (s : State) (product : i.opcode = .fmul ∨ i.opcode = .fsqr)
    (h : requestOf Config.modulus i = none) : exec i s = .next s.raiseContract := by
  have rule : ruleOf i s = reduceRule (requestOf Config.modulus i) s.reduce := by
    cases i with
    | fmul | fsqr => rfl
    | wmul | cred | fadd | fsub | fromInt | fout => simp [Instr.opcode] at product
  rw [exec_eq_finish, rule, h, reduceRule, State.finish]

/-- The command is due at the `left`-th edge from now, if it makes no request: the core cycles before the request and
those after it, or those of the countdown (R10). -/
def Work.DueIn (left : Nat) : Work → Prop
  | .running n => n = left
  | .toRequest wait after => 0 < wait ∧ wait + after = left
  | .asked _ _ => False
  | .answered _ _ => False

namespace Work.DueIn

variable {s : State} {i : Inputs} {w : Work} {n : Nat}

/-- Before the last edge, an edge takes a command without a request one edge closer to its end (R39, R111). -/
theorem busyEdge (h : w.DueIn (n + 2)) (noRequest : s.request? = none) :
    ∃ w' : Work, w'.DueIn (n + 1) ∧ s.busyEdge i w = .next (s.stayBusy w') := by
  cases w with
  | running left =>
    obtain rfl : left = n + 2 := h
    exact ⟨.running (n + 1), rfl, rfl⟩
  | toRequest wait after =>
    obtain ⟨positive, total⟩ := h
    obtain last | ⟨m, rfl⟩ := le_one_or_eq_add_two wait
    · obtain rfl : after = n + 1 := by omega
      exact ⟨.running (n + 1), rfl, busyEdge_toRequest_none last noRequest⟩
    · exact ⟨.toRequest (m + 1) after, ⟨m.succ_pos, by omega⟩, rfl⟩
  | asked | answered => exact h.elim

/-- The last edge runs the captured command (R38). -/
theorem last_busyEdge (h : w.DueIn 1) (noRequest : s.request? = none) : s.busyEdge i w = s.runLatched := by
  cases w with
  | running left =>
    obtain rfl : left = 1 := h
    rfl
  | toRequest wait after =>
    obtain ⟨positive, total⟩ := h
    obtain rfl : after = 0 := by omega
    exact busyEdge_toRequest_due (by omega) noRequest
  | asked | answered => exact h.elim

end Work.DueIn

/-- The command `c` is in progress with no request up, and due at the `left`-th edge from now. -/
def State.Refrains (c : Cmd) (fault : Bool) (left : Nat) (inputs : List Inputs) (s : State) : Prop :=
  s.redStart = false ∧ ∃ w : Work, w.DueIn left ∧ s.Doing c fault w inputs

namespace State.Refrains

section
variable {s : State} {c : Cmd} {fault : Bool} {left n : Nat} {i : Inputs} {passed rest : List Inputs}

/-- Such a state is BUSY, and the port `red_x` holds no request (R28, R110). -/
theorem ports (h : s.Refrains c fault left rest) : s.busy = true ∧ s.redX = none ∧ s.redStart = false := by
  obtain ⟨start, w, due, doing⟩ := h
  refine ⟨State.busy_of_busy doing.phase, State.redX_eq_none_iff.2 fun x after asked => ?_, start⟩
  obtain rfl : w = .asked x after := Phase.busy.inj (doing.phase.symm.trans asked)
  exact due

theorem latched (h : s.Refrains c fault left rest) : s.latched = c := by
  obtain ⟨-, w, -, doing⟩ := h
  exact doing.latched

variable (noRequest : ∀ u : State, u.latched = c → u.request? = none)
include noRequest

/-- Edges short of the last one bring the command closer to its end, and do nothing else (R39, R111). -/
theorem run (quiet : ∀ j ∈ passed, j.rst = false)
    (h : s.Refrains c fault (n + passed.length + 1) (passed ++ rest)) :
    ∃ t : State, Host.Core.run core passed.length s = .next t ∧ t.Refrains c fault (n + 1) rest := by
  induction passed generalizing s with
  | nil => exact ⟨s, rfl, h⟩
  | cons i passed ih =>
    obtain ⟨notReset, quiet⟩ := List.forall_mem_cons.1 quiet
    obtain ⟨-, w, due, doing⟩ := h
    obtain ⟨w', due', edge⟩ := due.busyEdge (i := i) (noRequest s.advance doing.latched)
    obtain ⟨t, ht, refrains⟩ := ih quiet ⟨rfl, w', due', doing.advance.stayBusy w'⟩
    exact ⟨t, by rw [List.length_cons, core_run_step ((doing.step_eq notReset).trans edge), ht], refrains⟩

/-- The last edge runs the captured command (R38). -/
theorem last_step (h : s.Refrains c fault 1 (i :: rest)) (notReset : i.rst = false) :
    step s = s.advance.runLatched := by
  obtain ⟨-, w, due, doing⟩ := h
  exact (doing.step_eq notReset).trans (due.last_busyEdge (noRequest s.advance doing.latched))

end
end State.Refrains

/-- Acceptance of an FMUL or FSQR, whose latency covers the cycle of its request (R10, R37). -/
theorem accept_refrains {s : State} {i : Inputs} {rest : List Inputs} {k : Opcode} (idle : s.phase = .idle)
    (listed : s.inputs = i :: rest) (notReset : i.rst = false) (valid : i.cmdValid = true)
    (legal : decodeOp i.cmd.op = .ok k) (product : k = .fmul ∨ k = .fsqr) :
    ∃ t, step s = .next t ∧ t.Refrains i.cmd s.fault (Config.latency (some k)) rest := by
  have cycle : Config.requestCycle k ≤ Config.latency (some k) := Nat.mod_lt _ (Nat.succ_pos _)
  have now := input_of_inputs_cons listed
  have due : (Work.start i.cmd.op).DueIn (Config.latency (some k)) := by
    rw [start_of_reducer_command legal product]
    exact ⟨Nat.succ_pos _, Nat.add_sub_cancel' cycle⟩
  refine ⟨_, step_accept (by rwa [now]) idle (by rwa [now]), ?_⟩
  rw [now]
  exact ⟨rfl, _, due, rfl, rfl, rfl, congrArg List.tail listed⟩

/-- Settles O57: the core cycles before the cycle of the request and those after it are the whole latency, and at its
end the rule finds no request. -/
theorem violatingProductSendsNoRequest : Obligations.ViolatingProductSendsNoRequest := by
  intro s i during rest c idle listed notReset valid decoded product violates latency quiet
  have noRequest : ∀ u : State, u.latched = i.cmd → u.request? = none := fun u latched =>
    (request?_of_latched latched decoded).trans (requestOf_of_violates violates)
  have completes : ∀ u : State, u.latched = i.cmd → u.runLatched = .next u.raiseContract := fun u latched =>
    (runLatched_ok (latched.symm ▸ decoded)).trans (exec_of_requestOf_none u product (requestOf_of_violates violates))
  obtain ⟨k, legal, -, rfl⟩ := decode_eq_ok decoded
  obtain ⟨u, hu, accepted⟩ := accept_refrains idle listed notReset valid legal product
  rw [← latency] at accepted
  have run : ∀ {n : Nat} {passed later : List Inputs}, during = passed ++ later → later.length = n + 1 →
      ∃ t : State, Host.Core.run core (1 + passed.length) s = .next t ∧
        t.Refrains i.cmd s.fault (n + 1) (later ++ rest) := by
    rintro n passed later rfl length
    rw [List.length_append, length, List.append_assoc, Nat.add_left_comm, ← Nat.add_assoc] at accepted
    obtain ⟨t, ht, refrains⟩ := accepted.run noRequest (List.forall_mem_append.1 quiet).1
    exact ⟨t, by rw [Nat.add_comm, core_run_step hu, ht], refrains⟩
  refine ⟨fun k hk => ?_, ?_⟩
  · obtain ⟨n, left⟩ := Nat.exists_eq_add_of_lt hk
    obtain ⟨t, ht, refrains⟩ := run (n := n) (List.take_append_drop k during).symm
      (by rw [List.length_drop]; omega)
    rw [List.length_take_of_le hk.le] at ht
    exact ⟨t, ht, refrains.ports⟩
  · obtain rfl | ⟨front, last, rfl⟩ := List.eq_nil_or_concat' during
    · cases latency
    · obtain ⟨t, ht, due⟩ := run (n := 0) rfl rfl
      have ends := (due.last_step noRequest (quiet last (by simp))).trans (completes t.advance due.latched)
      refine ⟨t.advance.raiseContract, ?_, rfl, rfl, rfl, Bool.or_true _, rfl⟩
      rw [List.length_append, ← Nat.add_assoc, core_run_trans _ _ ht]
      exact core_run_step ends 0

end Sys2Proof.Machine
end

section
/-!
PROOFS. The conversions FROM and FOUT of values below `P`, and their round trip (45_conversion.md R119, R122, R123).
-/

namespace Sys2Proof.Machine

theorem ruleOf_fout_ok {a : FieldWord} (s : State) (h : a.toNat < Config.P) :
    ruleOf (.fout a) s = .ok (BitVec.ofNat 512 a.toNat) :=
  (foutRule_eq _ _).trans (if_pos h)

/-- Settles O21: below `P` the rule of FROM completes with the integer itself. -/
theorem fromCompletes : Obligations.FromCompletes := by
  intro n s h
  rw [← BitVec.ofNat_toNat]
  exact exec_of_ruleOf_ok (ruleOf_fromInt_ok s h)

/-- Settles O22: for a field element the rule of FOUT completes with that element. -/
theorem foutCompletes : Obligations.FoutCompletes := by
  intro a s h
  rw [← BitVec.ofNat_toNat]
  exact exec_of_ruleOf_ok (ruleOf_fout_ok s h)

/-- The low bits of a zero-extended operand, those `RES` hands to the next command, are the operand (R22, R64). -/
theorem setWidth_setWidth_fieldWord (x : FieldWord) : (x.setWidth 512).setWidth 256 = x := by
  rw [BitVec.setWidth_setWidth_of_le x (by decide), BitVec.setWidth_eq]

/-- Settles O26: FOUT gets back the operand of FROM, still below `P`, so it completes with that operand. -/
theorem fromThenFout : Obligations.FromThenFout := by
  intro n s h
  have roundTrip := setWidth_setWidth_fieldWord n
  refine ⟨_, _, fromCompletes n s h, foutCompletes _ _ (by rwa [roundTrip]), ?_, rfl, rfl⟩
  rw [roundTrip, BitVec.toNat_setWidth_of_le (by decide)]

end Sys2Proof.Machine
end

section
/-!
PROOFS. The outcome of each command, by the condition its rule puts on the operands, and the outcomes of a rejected
command byte and of reset (60_exceptions.md R129 to R133, R136; 70_reset_and_hazards.md R144).
-/

namespace Sys2Proof.Machine

/-! What each kind of operands comes to (R129, R131, R132). -/

/-- A command that breaks its precondition ends in CONTRACT (R131). -/
theorem exec_of_violates {i : Instr} (s : State) (h : violatesPrecondition Config.modulus i) :
    exec i s = .next s.raiseContract := by
  have of_rule (rule : ruleOf i s = .contract) : exec i s = .next s.raiseContract := by
    rw [exec_eq_finish, rule, State.finish]
  cases i with
  | wmul a b => exact h.elim
  | cred a e => exact of_rule (credRule_contract _ a e h)
  | fadd a b => exact of_rule (faddRule_contract _ a b h)
  | fsub a b => exact of_rule (fsubRule_contract _ a b h)
  | fmul a b => exact exec_of_requestOf_none s (.inl rfl) (requestOf_of_violates h)
  | fsqr a => exact exec_of_requestOf_none s (.inr rfl) (requestOf_of_violates h)
  | fromInt n => exact h.elim
  | fout a => exact of_rule ((foutRule_eq _ a).trans (if_neg (Nat.not_lt.2 h)))

/-- FROM of an integer that is no field element ends in OUT_OF_RANGE (R132). -/
theorem exec_fromInt_of_le {n : FieldWord} (s : State) (h : Config.P ≤ n.toNat) :
    exec (.fromInt n) s = .next s.raiseOutOfRange := by
  have rule : ruleOf (.fromInt n) s = .outOfRange := (fromRule_eq _ n).trans (if_neg (Nat.not_lt.2 h))
  rw [exec_eq_finish, rule, State.finish]

/-- Every other command completes with a result (R129). -/
theorem exists_ruleOf_eq_ok {i : Instr} (s : State) (keeps : ¬ violatesPrecondition Config.modulus i)
    (inRange : ¬ ∃ n : FieldWord, i = .fromInt n ∧ Config.P ≤ n.toNat) : ∃ r, ruleOf i s = .ok r := by
  cases i with
  | wmul a b => exact ⟨_, rfl⟩
  | cred a e => exact ⟨_, credRule_ok _ a e (Nat.lt_of_not_le keeps)⟩
  | fadd a b =>
    obtain ⟨ha, hb⟩ := (canonical_or_violates _ a b).resolve_right keeps
    exact ⟨_, faddRule_ok _ a b ha hb⟩
  | fsub a b =>
    obtain ⟨ha, hb⟩ := (canonical_or_violates _ a b).resolve_right keeps
    exact ⟨_, fsubRule_ok _ a b ha hb⟩
  | fmul a b =>
    obtain ⟨ha, hb⟩ := (canonical_or_violates _ a b).resolve_right keeps
    exact ⟨_, ruleOf_of_requestOf s (requestOf_fmul ha hb)⟩
  | fsqr a => exact ⟨_, ruleOf_of_requestOf s (requestOf_fsqr (Nat.lt_of_not_le keeps))⟩
  | fromInt n => exact ⟨_, ruleOf_fromInt_ok s (Nat.lt_of_not_le fun above => inRange ⟨n, rfl, above⟩)⟩
  | fout a => exact ⟨_, ruleOf_fout_ok s (Nat.lt_of_not_le keeps)⟩

/-- The three outcomes of a command, each with what its operands are then; no two of them meet. -/
theorem exec_cases (i : Instr) (s : State) :
    (violatesPrecondition Config.modulus i ∧ exec i s = .next s.raiseContract) ∨
    (∃ n : FieldWord, i = .fromInt n ∧ Config.P ≤ n.toNat ∧ exec i s = .next s.raiseOutOfRange) ∨
    (¬ violatesPrecondition Config.modulus i ∧ (¬ ∃ n : FieldWord, i = .fromInt n ∧ Config.P ≤ n.toNat) ∧
      ∃ r, exec i s = .next (s.complete r)) := by
  by_cases violates : violatesPrecondition Config.modulus i
  · exact .inl ⟨violates, exec_of_violates s violates⟩
  by_cases inRange : ∃ n : FieldWord, i = .fromInt n ∧ Config.P ≤ n.toNat
  · obtain ⟨n, rfl, above⟩ := inRange
    exact .inr (.inl ⟨n, rfl, above, exec_fromInt_of_le s above⟩)
  · obtain ⟨r, rule⟩ := exists_ruleOf_eq_ok s violates inRange
    exact .inr (.inr ⟨violates, inRange, r, exec_of_ruleOf_ok rule⟩)

/-! The two ways an error completion treats FAULT (R26). -/

/-- An error that sets FAULT leaves it at 1, whatever it was. -/
theorem State.raise_true (code : Code) (s : State) :
    s.raise code true = { s with
      result := Config.anyResult s.draws, draws := s.draws + 1
      valid := false, code := code, fault := true, phase := .idle, done := true } := by
  rw [State.raise, Bool.or_true]

/-- An error that does not set FAULT leaves it as it was. -/
theorem State.raise_false (code : Code) (s : State) :
    s.raise code false = { s with
      result := Config.anyResult s.draws, draws := s.draws + 1
      valid := false, code := code, phase := .idle, done := true } := by
  rw [State.raise, Bool.or_false]

/-- Settles O27: of the three outcomes the first alone has CODE = CONTRACT. -/
theorem contractViolationOutcome : Obligations.ContractViolationOutcome := by
  intro i s
  obtain ⟨violates, ends⟩ | ⟨n, rfl, -, ends⟩ | ⟨keeps, -, r, ends⟩ := exec_cases i s
  · exact ⟨_, ends, fun _ => s.raise_true .contract, fun keeps => absurd violates keeps⟩
  · exact ⟨_, ends, False.elim, nofun⟩
  · exact ⟨_, ends, fun violates => absurd violates keeps, nofun⟩

/-- Settles O28: of the three outcomes the second alone has CODE = OUT_OF_RANGE, and FROM has no precondition. -/
theorem outOfRangeOutcome : Obligations.OutOfRangeOutcome := by
  intro i s
  obtain ⟨violates, ends⟩ | ⟨n, rfl, above, ends⟩ | ⟨-, inRange, r, ends⟩ := exec_cases i s
  · refine ⟨_, ends, ?_, nofun⟩
    rintro n rfl -
    exact violates.elim
  · exact ⟨_, ends, fun _ _ _ => s.raise_false .outOfRange, fun _ => ⟨n, rfl, above⟩⟩
  · exact ⟨_, ends, fun n from_n above => absurd ⟨n, from_n, above⟩ inRange, nofun⟩

/-! A rejected command byte (R60, R61, R133, R135). -/

theorem reducerFree_of_error {op : OpByte} {err : DecodeError} (h : decodeOp op = .error err) : reducerFree op := by
  simp [reducerFree, h]

/-- Settles O29: the way of a rejected byte is a countdown, and the edge at its end finds no command to run. -/
theorem illegalCommandOutcome : Obligations.IllegalCommandOutcome := by
  rintro s ⟨err, rejected⟩
  have free := reducerFree_of_error rejected
  have way : Work.start s.op = .running (Config.latency none) := by
    rw [start_of_reducerFree free, rejected, Except.toOption]
  refine ⟨way, request?_of_reducerFree free, fun left due busy notReset => ⟨s.advance.raiseIllegal, ?_, ?_⟩⟩
  · rw [step_busy notReset busy, busyEdge_running_due due]
    exact runLatched_error (decode_eq_error rejected)
  · exact s.advance.raise_true .illegal

/-! Reset (R136, R144). -/

theorem State.resetEdge_status (s : State) : s.resetEdge.status = 0x00 := by
  rw [State.status_of_idle s.resetEdge_phase, resetEdge_fault, resetEdge_code, resetEdge_valid]
  decide

/-- Settles O44: `cmd_ready` needs `rst = 0`, and the edge gives the reset state, with RESULT unreadable. -/
theorem resetWins : Obligations.ResetWins := by
  intro s reset
  have notReady : s.cmdReady = false := by rw [State.cmdReady, reset, Bool.not_true, Bool.and_false]
  exact ⟨notReady, _, step_reset reset, rfl, State.resetEdge_status _, rfl, rfl, rfl, rfl, rfl⟩

end Sys2Proof.Machine
end

section
/-!
PROOFS. Reset while the reducer is waited for: the edge is one of reset and the next one of IDLE, where an answer finds
no request (70_reset_and_hazards.md R145; 44_field_mul_square.md R110).
-/

namespace Sys2Proof.Machine

/-- Settles O45: the reset edge leaves IDLE with the pulses low, and a quiet edge in IDLE ends those alone. -/
theorem resetWithdrawsRequest : Obligations.ResetWithdrawsRequest := by
  intro s x after i j rest _ listed reset notReset noCommand
  have resetDue : s.input.rst = true := by rwa [input_of_inputs_cons listed]
  have next : s.advance.resetEdge.inputs = j :: rest := congrArg List.tail listed
  have port : s.advance.resetEdge.input = j := input_of_inputs_cons next
  have quiet := idleEdgeHolds s.advance.resetEdge rfl (by rwa [port]) (by rwa [port])
  refine ⟨_, _, step_reset resetDue, rfl, State.resetEdge_status _, rfl, quiet, ?_⟩
  rw [next]
  rfl

end Sys2Proof.Machine
end
